-- ==== Sys2Proof/Word.lean ====
section
/-! DEFINITION. The word types of CORE: every value of the spec is an unsigned bit string of 8, 16 or 32 bits
(00_scope.md rules R6 and R9); their arithmetic is `BitVec`'s own, modulo the width (R10). -/

namespace Sys2Proof

/-- 8 bits: a buffer element, a CRC8 value, a table index, an opcode (R6). -/
abbrev Byte := BitVec 8

/-- 16 bits: a CRC16 accumulator, result or polynomial (R6). -/
abbrev Half := BitVec 16

/-- 32 bits: a CRC16 selector, a population-count operand (R6). -/
abbrev Word := BitVec 32

end Sys2Proof
end

