-- ==== Sys2Proof/Config.lean ====
section
/-! DEFINITION. The parameters of 00_scope.md rules R7 and R8, and the free values: what the spec leaves open and nothing
in Lean can evaluate. -/

namespace Sys2Proof

/-- `TABLE_STRATEGY` (R8): compute table entries on the fly, or look them up in the table cache. Which of the two a
deployment has is a field of the state, so that every statement about all states covers both (log 8). -/
inductive TableStrategy where
  | onTheFly
  | cached
deriving DecidableEq, Repr

namespace Config

/-- `MODBUS_SELECTOR` (R7, R91, D2; log 13). -/
def modbusSelector : Word := 0xFFFFA001#32

/-- `DNP_SELECTOR` (R7, R91, D3; log 13). -/
def dnpSelector : Word := 0x0000A6BC#32

/-- `MAX_FRAME_LEN` (R7, D8): the largest buffer length a frame can carry. -/
def maxFrameLen : Nat := 2 ^ 32 - 1

/-- How many ports CORE has beyond the first. DESIGN CHOICE: no value, the spec leaves `N_PORTS` open (D20; log 1). -/
opaque extraPorts : Nat

/-- `N_PORTS` (R7, R152): at least 1. -/
def nPorts : Nat := extraPorts + 1

/-- Free value: which of several ready ports is served, at each value of the counter `picks` (R55, R146; log 4). -/
opaque arbiter : Nat → Nat

/-- Free value: how many frames are served between one turn of a port and the next: finite, and any number (R168; log 4). -/
opaque turnGap : Nat → Nat

/-- Free value: how many entries of the table of each polynomial outlive a reset, at each value of the counter `picks`
(R32, R162: empty, partly built or fully built; log 10), the first ones (log 20). -/
opaque tableKept : Nat → Half → Nat

end Config

end Sys2Proof
end

