-- ==== Sys2Proof/Machine/Arbiter.lean ====
section
/-! DEFINITION. Which of several ready ports is served. Nothing orders the ports (20_memory.md rule R55, 60_exceptions.md rule R146),
so free values choose; but a port with a complete frame is eventually served (70_reset_and_hazards.md rule R168, weak fairness),
so each port has a turn again and again, at times that free values choose too (log 4). -/

namespace Sys2Proof.Machine

/-- After `n` served frames: which turn is the next one, and how many frames may be served before it. -/
def nextTurn : Nat → Nat × Nat
  | 0 => (0, Config.turnGap 0)
  | n + 1 =>
    match nextTurn n with
    | (turn, 0) => (turn + 1, Config.turnGap (turn + 1))
    | (turn, gap + 1) => (turn, gap)

/-- The port whose turn it is after `n` served frames, if it is a turn. The turns go round the ports. -/
def duePort (n : Nat) : Option Nat :=
  match nextTurn n with
  | (turn, 0) => some (turn % Config.nPorts)
  | (_, _ + 1) => none

/-- The one of several ports that is served after `n` served frames: the one whose turn it is, if it is among them, and else any. -/
def choosePort (n : Nat) (ready : List Nat) : Option Nat :=
  match duePort n with
  | some p => if ready.contains p then some p else ready[Config.arbiter n % ready.length]?
  | none => ready[Config.arbiter n % ready.length]?

end Sys2Proof.Machine
end

