-- ==== Sys2Proof/Syntax.lean ====
section
/-! DEFINITION. The nine commands of CORE as decoded values: one constructor per row of spec/opcode_table.json, each with the
operands of 10_state.md rule R21 in the source's signature order. -/

namespace Sys2Proof

/-- A decoded command (R21, R64). A buffer operand is a finite sequence of bytes, taken by value (R40, R44). -/
inductive Instr where
  /-- CRC16.ENTRY, opcode 0x10 (R82). -/
  | crc16Entry (index : Byte) (sel : Word)
  /-- CRC16.BYTE, opcode 0x11 (R84). -/
  | crc16Byte (sel : Word) (byte : Byte) (acc : Half)
  /-- CRC16.BUF, opcode 0x12 (R89); in the frame `acc` stands before `data` (R65). -/
  | crc16Buf (sel : Word) (data : List Byte) (acc : Half)
  /-- CRC16.CALC, opcode 0x13 (R90). -/
  | crc16Calc (sel : Word) (data : List Byte)
  /-- CRC8.BYTE, opcode 0x20 (R111). -/
  | crc8Byte (poly byte acc : Byte)
  /-- CRC8.CALC, opcode 0x21 (R112). -/
  | crc8Calc (poly init xorOut : Byte) (data : List Byte)
  /-- POPCNT32, opcode 0x30 (R121). -/
  | popcnt32 (value : Word)
  /-- POPCNT16, opcode 0x31 (R123). -/
  | popcnt16 (value : Word)
  /-- REV8, opcode 0x32 (R125). -/
  | rev8 (value : Byte)
deriving DecidableEq, Repr

end Sys2Proof
end

