-- ==== Sys2Proof/WellFormed.lean ====
section
/-! DEFINITION. Which decoded commands a frame can carry. Every operand value is legal (30_encoding.md rule R67); the one bound
is the buffer length, which has 32 bits in a frame (R62). -/

namespace Sys2Proof

/-- A buffer a frame can carry: at most `MAX_FRAME_LEN` bytes (R7, R62). -/
def bufferFits (data : List Byte) : Bool := decide (data.length ≤ Config.maxFrameLen)

/-- A command some frame encodes. The operations themselves accept any finite buffer (R40): only the frame bounds it. -/
def Instr.wf : Instr → Bool
  | .crc16Entry _ _ => true
  | .crc16Byte _ _ _ => true
  | .crc16Buf _ data _ => bufferFits data
  | .crc16Calc _ data => bufferFits data
  | .crc8Byte _ _ _ => true
  | .crc8Calc _ _ _ data => bufferFits data
  | .popcnt32 _ => true
  | .popcnt16 _ => true
  | .rev8 _ => true

end Sys2Proof
end

