-- ==== Sys2Proof/Decode.lean ====
section
/-! DEFINITION. The command frames of 30_encoding.md: the opcode map (R64), the field layouts (R65) with their little-endian
fields (R61), the frame decoder (total on any bytes), the frame length (R62), and after them the encoder. -/

namespace Sys2Proof

/-! ## The opcode map -/

/-- The nine operations an opcode byte can name (R64). -/
inductive Opcode where
  | crc16Entry
  | crc16Byte
  | crc16Buf
  | crc16Calc
  | crc8Byte
  | crc8Calc
  | popcnt32
  | popcnt16
  | rev8
deriving DecidableEq, Repr

/-- The opcode map of R64, row by row. -/
def opcodeTable : List (Byte × Opcode) :=
  [ (0x10#8, .crc16Entry)
  , (0x11#8, .crc16Byte)
  , (0x12#8, .crc16Buf)
  , (0x13#8, .crc16Calc)
  , (0x20#8, .crc8Byte)
  , (0x21#8, .crc8Calc)
  , (0x30#8, .popcnt32)
  , (0x31#8, .popcnt16)
  , (0x32#8, .rev8) ]

/-- The operation an opcode byte names; none for a reserved opcode (R64, R68). -/
def opcodeOf (op : Byte) : Option Opcode := opcodeTable.lookup op

/-- The opcode byte of an operation (R64). -/
def Opcode.code : Opcode → Byte
  | .crc16Entry => 0x10#8
  | .crc16Byte => 0x11#8
  | .crc16Buf => 0x12#8
  | .crc16Calc => 0x13#8
  | .crc8Byte => 0x20#8
  | .crc8Calc => 0x21#8
  | .popcnt32 => 0x30#8
  | .popcnt16 => 0x31#8
  | .rev8 => 0x32#8

/-! ## Fields -/

/-- A 16-bit little-endian field from its bytes, the one at the lowest offset first (R61). -/
def ofLE16 (b0 b1 : Byte) : Half := b1 ++ b0

/-- A 32-bit little-endian field from its bytes, the one at the lowest offset first (R61). -/
def ofLE32 (b0 b1 b2 b3 : Byte) : Word := b3 ++ b2 ++ b1 ++ b0

/-- Read an 8-bit field; none while it has not arrived (R69). -/
def field8 : List Byte → Option (Byte × List Byte)
  | b :: bs => some (b, bs)
  | _ => none

/-- Read a 16-bit field; none while it has not arrived (R61, R69). -/
def field16 : List Byte → Option (Half × List Byte)
  | b0 :: b1 :: bs => some (ofLE16 b0 b1, bs)
  | _ => none

/-- Read a 32-bit field; none while it has not arrived (R61, R69). -/
def field32 : List Byte → Option (Word × List Byte)
  | b0 :: b1 :: b2 :: b3 :: bs => some (ofLE32 b0 b1 b2 b3, bs)
  | _ => none

/-- Take `n` bytes of buffer data in their order; none while they have not all arrived (R60, R61, R69). -/
def takeBytes (n : Nat) (bs : List Byte) : Option (List Byte × List Byte) :=
  if n ≤ bs.length then some (bs.take n, bs.drop n) else none

/-- Read a buffer operand: its 32-bit length, then its bytes (R60). -/
def fieldBuffer (bs : List Byte) : Option (List Byte × List Byte) :=
  (field32 bs).bind fun (n, bs) => takeBytes n.toNat bs

/-! ## The frame decoder -/

/-- Read the operands after an opcode, in the frame order of R65; none while they have not all arrived (R69). -/
def decodeOperands (op : Opcode) (bs : List Byte) : Option (Instr × List Byte) :=
  match op with
  | .crc16Entry =>
    (field8 bs).bind fun (index, bs) =>
    (field32 bs).bind fun (sel, bs) =>
    some (.crc16Entry index sel, bs)
  | .crc16Byte =>
    (field32 bs).bind fun (sel, bs) =>
    (field8 bs).bind fun (byte, bs) =>
    (field16 bs).bind fun (acc, bs) =>
    some (.crc16Byte sel byte acc, bs)
  | .crc16Buf =>
    (field32 bs).bind fun (sel, bs) =>
    (field16 bs).bind fun (acc, bs) =>
    (fieldBuffer bs).bind fun (data, bs) =>
    some (.crc16Buf sel data acc, bs)
  | .crc16Calc =>
    (field32 bs).bind fun (sel, bs) =>
    (fieldBuffer bs).bind fun (data, bs) =>
    some (.crc16Calc sel data, bs)
  | .crc8Byte =>
    (field8 bs).bind fun (poly, bs) =>
    (field8 bs).bind fun (byte, bs) =>
    (field8 bs).bind fun (acc, bs) =>
    some (.crc8Byte poly byte acc, bs)
  | .crc8Calc =>
    (field8 bs).bind fun (poly, bs) =>
    (field8 bs).bind fun (init, bs) =>
    (field8 bs).bind fun (xorOut, bs) =>
    (fieldBuffer bs).bind fun (data, bs) =>
    some (.crc8Calc poly init xorOut data, bs)
  | .popcnt32 =>
    (field32 bs).bind fun (value, bs) =>
    some (.popcnt32 value, bs)
  | .popcnt16 =>
    (field32 bs).bind fun (value, bs) =>
    some (.popcnt16 value, bs)
  | .rev8 =>
    (field8 bs).bind fun (value, bs) =>
    some (.rev8 value, bs)

/-- What a port's received bytes begin with. -/
inductive Decoded where
  /-- A complete frame of a command, and the bytes after it. -/
  | command (i : Instr) (rest : List Byte)
  /-- A reserved opcode: IllegalCommand, one byte consumed (R68, R141). -/
  | illegalCommand (op : Byte) (rest : List Byte)
  /-- Not a command yet (R69); also the port with nothing received. -/
  | incomplete
deriving DecidableEq, Repr

/-- Decode the first frame of the bytes received on a port. The reserved-opcode check is made on byte 0 alone (R146). -/
def decode : List Byte → Decoded
  | [] => .incomplete
  | op :: bs =>
    match opcodeOf op with
    | none => .illegalCommand op bs
    | some o =>
      match decodeOperands o bs with
      | none => .incomplete
      | some (i, rest) => .command i rest

/-! ## The length of a frame -/

/-- The length of a buffer frame with a fixed header of `header` bytes, whose length field is the header's last four bytes
(R60, R62); none while the header has not arrived. `bs` is the whole frame. -/
def bufferFrameLength (header : Nat) (bs : List Byte) : Option Nat :=
  (field32 (bs.drop (header - 4))).map fun (n, _) => header + n.toNat

/-- How many bytes the first frame has, known from its opcode alone or from its opcode and its buffer length field (R62); a
reserved opcode is consumed alone (R68). -/
def frameLength : List Byte → Option Nat
  | [] => none
  | op :: bs =>
    match opcodeOf op with
    | none => some 1
    | some .crc16Entry => some 6
    | some .crc16Byte => some 8
    | some .crc16Buf => bufferFrameLength 11 (op :: bs)
    | some .crc16Calc => bufferFrameLength 9 (op :: bs)
    | some .crc8Byte => some 4
    | some .crc8Calc => bufferFrameLength 8 (op :: bs)
    | some .popcnt32 => some 5
    | some .popcnt16 => some 5
    | some .rev8 => some 2

/-! ## The encoder -/

/-- The bytes of a 16-bit field, least significant first (R61). -/
def bytesLE16 (v : Half) : List Byte := [v.extractLsb' 0 8, v.extractLsb' 8 8]

/-- The bytes of a 32-bit field, least significant first (R61). -/
def bytesLE32 (v : Word) : List Byte :=
  [v.extractLsb' 0 8, v.extractLsb' 8 8, v.extractLsb' 16 8, v.extractLsb' 24 8]

/-- A buffer operand in a frame: the 32-bit length, then the bytes in buffer order (R60). -/
def bytesOfBuffer (data : List Byte) : List Byte := bytesLE32 (BitVec.ofNat 32 data.length) ++ data

/-- The frame of a command (R65). -/
def encode : Instr → List Byte
  | .crc16Entry index sel => 0x10#8 :: index :: bytesLE32 sel
  | .crc16Byte sel byte acc => 0x11#8 :: (bytesLE32 sel ++ byte :: bytesLE16 acc)
  | .crc16Buf sel data acc => 0x12#8 :: (bytesLE32 sel ++ bytesLE16 acc ++ bytesOfBuffer data)
  | .crc16Calc sel data => 0x13#8 :: (bytesLE32 sel ++ bytesOfBuffer data)
  | .crc8Byte poly byte acc => [0x20#8, poly, byte, acc]
  | .crc8Calc poly init xorOut data => 0x21#8 :: poly :: init :: xorOut :: bytesOfBuffer data
  | .popcnt32 value => 0x30#8 :: bytesLE32 value
  | .popcnt16 value => 0x31#8 :: bytesLE32 value
  | .rev8 value => [0x32#8, value]

/-! ## Words numbered as the opcode table numbers them -/

/-- The first `n` bytes of a number, bits 7:0 first. -/
def bytesOfNat : Nat → Nat → List Byte
  | 0, _ => []
  | n + 1, w => BitVec.ofNat 8 w :: bytesOfNat n (w / 256)

/-- The longest fixed header of a frame (CRC16.BUF, R62). -/
def longestHeader : Nat := 11

/-- The frame whose first `nbits` bits are `w` and whose further bits, as many as the frame has, are zero. -/
def frameOfWord (nbits w : Nat) : List Byte :=
  let given := bytesOfNat (nbits / 8) w
  match frameLength (given ++ List.replicate longestHeader 0#8) with
  | none => given
  | some n => given ++ List.replicate (n - given.length) 0#8

/-- The command the decoder reads from the frame `frameOfWord nbits w`; none where it refuses. -/
def decodeTableWord (nbits w : Nat) : Option Instr :=
  match decode (frameOfWord nbits w) with
  | .command i _ => some i
  | .illegalCommand _ _ => none
  | .incomplete => none

end Sys2Proof
end

