-- ==== Sys2Proof/Machine/State.lean ====
section
/-! DEFINITION. The state of CORE as plain data. CORE has no registers, no program counter, no flags, no control registers and
no memory (10_state.md rules R20, R25, R26, R27; 20_memory.md rule R41): what remains is the ports and the table cache. -/

namespace Sys2Proof.Machine

/-- The value a command delivers, in the width R21 gives it. -/
inductive Result where
  | byte (value : Byte)
  | half (value : Half)
  | word (value : Word)
deriving DecidableEq, Repr

/-- One response frame (R63): the only two outcomes a command can report (R142, R144). -/
inductive Response where
  /-- Status OK and the result. -/
  | ok (result : Result)
  /-- Status ILLEGAL: the frame began with a reserved opcode (R141). -/
  | illegal
deriving DecidableEq, Repr

/-- One port (R152): a serial command stream between a host and CORE. -/
structure Port where
  /-- The bytes received and not yet consumed; the first is an opcode position (R32, R60, R69). -/
  rx : List Byte
  /-- The responses sent and not yet taken by the host, oldest first (R50, R63; log 6). -/
  tx : List Response
deriving DecidableEq, Repr

/-- A port at a frame boundary that owes no response (R160). -/
def Port.idle : Port := { rx := [], tx := [] }

/-- The stored table of one CRC16 polynomial: entry i is the i-th of the list, and a table still being built is shorter than 256
entries (R28, R32). That a partly built table has its entries in index order from 0, with none left out, is the model's choice
(log 20). -/
structure CachedTable where
  poly : Half
  entries : List Half
deriving DecidableEq, Repr

/-- The state of CORE. -/
structure State where
  /-- The ports by number, strictly rising, none of them idle: a port not listed is idle (R152; log 2). -/
  ports : List (Nat × Port)
  /-- The port whose command is being performed. The model's own field (log 5). -/
  serving : Nat
  /-- How many frames have been served: the counter the free values are drawn at. The model's own field (log 4). -/
  picks : Nat
  /-- `TABLE_STRATEGY`, a build-time parameter (R8, R27; log 8). -/
  strategy : TableStrategy
  /-- The table cache, by polynomial, strictly rising (R28). -/
  cache : List CachedTable
deriving DecidableEq, Repr

/-- CORE right after power-on (R32, R160): every port idle. The last four fields are the model's choice (logs 4, 5, 7, 8). -/
def State.reset : State :=
  { ports := [], serving := 0, picks := 0, strategy := .onTheFly, cache := [] }

/-- The faults of CORE: none. "There is no fault state in CORE" (R144); no command raises, traps or faults, for any operand
values (R140). Nobody raises one, so no fault is unsafe. -/
inductive Fault where
deriving DecidableEq, Repr

/-- The refusals. -/
inductive Refusal where
  /-- Raised by an arm of `exec` whose command has no meaning yet; safe. No arm of this model raises it. -/
  | notModelled (mnemonic : String)
deriving DecidableEq, Repr

/-- The outcome of one step of CORE. -/
abbrev Outcome := Host.Outcome State Fault Refusal

end Sys2Proof.Machine
end

