-- ==== Sys2Proof/Machine/Flags.lean ====
section
/-! DEFINITION. CORE has no flags, condition codes or status bits (10_state.md rule R26): no command writes one and this file
computes none. The only status CORE reports is the status byte of a response frame (30_encoding.md rule R63), which is part of
the command's result and is not retained. -/

namespace Sys2Proof.Machine

/-- The status byte: 0x00 OK, 0x01 ILLEGAL; no other value is ever sent (R63, R142). -/
def Response.status : Response → Byte
  | .ok _ => 0x00#8
  | .illegal => 0x01#8

/-- The bytes of a result, little-endian, in its width (R61, R63). -/
def Result.bytes : Result → List Byte
  | .byte v => [v]
  | .half v => bytesLE16 v
  | .word v => bytesLE32 v

/-- The bytes after the status byte: an ILLEGAL response has none (R63). -/
def Response.payload : Response → List Byte
  | .ok r => r.bytes
  | .illegal => []

/-- The response frame as bytes on the port (R63). -/
def Response.frame (r : Response) : List Byte := r.status :: r.payload

end Sys2Proof.Machine
end

