-- ==== Sys2Proof/Machine/Operands.lean ====
section
/-! DEFINITION. The operand forms of CORE: a whole unsigned field used at its own width (30_encoding.md rule R66), the packed
CRC16 selector (10_state.md rule R22), which the operation and not the decoder splits, and the buffer, which is a list of
bytes (20_memory.md rule R40). With them the primitives of 00_scope.md rule R10 that `BitVec` does not name. -/

namespace Sys2Proof.Machine

/-- `poly(sel) = sel[15:0]` (R22). -/
def polyOf (sel : Word) : Half := sel.extractLsb' 0 16

/-- `initialValueOf(sel) = sel[31:16]` (R22). -/
def initialValueOf (sel : Word) : Half := sel.extractLsb' 16 16

/-- The selector with the given fields (R22). -/
def selectorOf (initial poly : Half) : Word := initial ++ poly

/-- `isDNP(sel)`: all 32 bits equal `DNP_SELECTOR` (R86). -/
def isDNP (sel : Word) : Bool := sel == Config.dnpSelector

/-- `zext_16` of a byte (R10). -/
def zext16 (b : Byte) : Half := b.setWidth 16

/-- `v[7:0]` of a 16-bit value (R9). -/
def lowByte (v : Half) : Byte := v.extractLsb' 0 8

/-- `not16(x) = x xor 0xFFFF` (R10). -/
def not16 (x : Half) : Half := x ^^^ 0xFFFF#16

/-- `swap16(x) = (x[7:0] << 8) or x[15:8]` (R10, R46). -/
def swap16 (x : Half) : Half := ((x.extractLsb' 0 8).setWidth 16 <<< 8) ||| (x.extractLsb' 8 8).setWidth 16

/-- How many of the lowest `k` bits of `v` are 1. -/
def onesBelow {w : Nat} (v : BitVec w) : Nat → Nat
  | 0 => 0
  | k + 1 => onesBelow v k + (v.getLsbD k).toNat

/-- `popcount(v)`: the number of bits equal to 1 in v, a natural number (R10). -/
def popcount {w : Nat} (v : BitVec w) : Nat := onesBelow v w

end Sys2Proof.Machine
end

