-- ==== Sys2Proof/Machine/Ops.lean ====
section
/-! DEFINITION. The named operations over the state: reading and writing a port, receiving bytes, starting a frame, delivering a
result, and IllegalCommand, the one error outcome (60_exceptions.md rule R141). Every access to `State.ports` goes through
`State.port` and `State.setPort`. -/

namespace Sys2Proof.Machine

/-! ## Ports -/

/-- A port at a frame boundary with no response waiting: one the list of ports does not list (log 2). -/
def Port.isIdle (x : Port) : Bool := x.rx.isEmpty && x.tx.isEmpty

/-- The port numbered `p` in a list of ports; idle where it is not listed. -/
def portAt (p : Nat) : List (Nat × Port) → Port
  | [] => .idle
  | (q, x) :: t => if q = p then x else portAt p t

/-- A list of ports with `x` in front, unless it is idle. -/
def consPort (p : Nat) (x : Port) (t : List (Nat × Port)) : List (Nat × Port) :=
  if x.isIdle then t else (p, x) :: t

/-- The list of ports with port `p` set to `x`, in its canonical form. -/
def putPort (p : Nat) (x : Port) : List (Nat × Port) → List (Nat × Port)
  | [] => consPort p x []
  | (q, y) :: t =>
    if p < q then consPort p x ((q, y) :: t)
    else if p = q then consPort p x t
    else (q, y) :: putPort p x t

/-- The canonical form: port numbers strictly rising and all of them ports that exist (R152), and no idle port listed. -/
def portsWf (l : List (Nat × Port)) : Bool :=
  decide ((l.map Prod.fst).Pairwise (· < ·)) && l.all fun e => decide (e.1 < Config.nPorts) && !e.2.isIdle

/-- The port numbered `p`. -/
def State.port (s : State) (p : Nat) : Port := portAt p s.ports

/-- The state with port `p` set to `x`. -/
def State.setPort (s : State) (p : Nat) (x : Port) : State := { s with ports := putPort p x s.ports }

/-! ## What a frame does to a port -/

/-- Bytes arrive on port `p` behind those already received (R60, R169). -/
def State.receive (s : State) (p : Nat) (bytes : List Byte) : State :=
  s.setPort p { s.port p with rx := (s.port p).rx ++ bytes }

/-- Begin the first frame of port `p`, which leaves `rest` of the received bytes: the frame is consumed, and the port is the one
being served. -/
def State.beginFrame (s : State) (p : Nat) (rest : List Byte) : State :=
  { s.setPort p { s.port p with rx := rest } with serving := p, picks := s.picks + 1 }

/-- Send a response on the port being served, after those already sent (R50, R63). -/
def State.respond (s : State) (r : Response) : State :=
  s.setPort s.serving { s.port s.serving with tx := (s.port s.serving).tx ++ [r] }

/-- `result <- v`: deliver the result of the command being performed (R11, R43: the only effect a command has). -/
def State.deliver (s : State) (v : Result) : State := s.respond (.ok v)

/-- IllegalCommand (R141): the response `01` and nothing else; the opcode byte itself is consumed by `beginFrame`. It saves no
state and transfers control nowhere (R147), so there is no return from it (R148). -/
def State.illegalCommand (s : State) : State := s.respond .illegal

end Sys2Proof.Machine
end

