-- ==== Sys2Proof/Machine/BitUtil.lean ====
section
/-! DEFINITION. The bit utilities (42_bit_utilities.md): population counts (rules R120, R122), bit reversal (R124) and the
meanings of POPCNT32, POPCNT16 and REV8 (R121, R123, R125). -/

namespace Sys2Proof.Machine

/-- `PopCount32(v)` (R120). -/
def popCount32 (v : Word) : Word := BitVec.ofNat 32 (popcount v)

/-- `PopCount16(v)`: the bits set in v[15:0], for operands of every width (R122, R123, D7; log 12). Below 2^16 the source fixes
this; above, it is the decided value of the parameter `POPCNT16_WIDE` (R7). -/
def popCount16 (v : Word) : Half := BitVec.ofNat 16 (popcount (v.extractLsb' 0 16))

/-- The SWAR sequence of R120: a law's other side, not a definition the machine uses. -/
def swar32 (v : Word) : Word :=
  let v1 := v - ((v >>> 1) &&& 0x55555555#32)
  let v2 := (v1 &&& 0x33333333#32) + ((v1 >>> 2) &&& 0x33333333#32)
  let v3 := (v2 + (v2 >>> 4)) &&& 0x0F0F0F0F#32
  (v3 * 0x01010101#32) >>> 24

/-- The SWAR sequence of R122, whose product is taken modulo 2^16: a law's other side. -/
def swar16 (v : Word) : Half :=
  let v1 := v - ((v >>> 1) &&& 0x5555#32)
  let v2 := (v1 &&& 0x3333#32) + ((v1 >>> 2) &&& 0x3333#32)
  let v3 := (v2 + (v2 >>> 4)) &&& 0x0F0F#32
  (v3 * 0x0101#32).setWidth 16 >>> 8

/-- The loop of R124, `k` iterations of shift-and-insert. -/
def rev8Loop : Nat → Byte → Byte → Byte
  | 0, o, _ => o
  | k + 1, o, x => rev8Loop k ((o <<< 1) ||| (x &&& 0x01#8)) (x >>> 1)

/-- `Rev8(v)` (R124). -/
def rev8 (v : Byte) : Byte := rev8Loop 8 0x00#8 v

/-- POPCNT32: `result <- zext_32(popcount(value))` (R121). -/
def execPopcnt32 (value : Word) (s : State) : Outcome :=
  .next (s.deliver (.word (popCount32 value)))

/-- POPCNT16: `result <- zext_16(popcount(value[15:0]))` (R123). -/
def execPopcnt16 (value : Word) (s : State) : Outcome :=
  .next (s.deliver (.half (popCount16 value)))

/-- REV8: `result <- Rev8(value)` (R125). -/
def execRev8 (value : Byte) (s : State) : Outcome :=
  .next (s.deliver (.byte (rev8 value)))

end Sys2Proof.Machine
end

