-- ==== Sys2Proof/Machine/Crc16Engine.lean ====
section
/-! DEFINITION. The functions of the CRC16 engine (40_crc16.md rules R80 to R91) as functions of operands. The per-byte and the
buffer update take the table entries as an argument, because a deployment may read them from a cache (R8, R94); with
`tableEntry` in that place they are the functions of R83 and R88. -/

namespace Sys2Proof.Machine

/-- The loop of R80, `k` iterations, on `entry` and the shifting `index`. -/
def tableLoop (p : Half) : Nat → Half → Byte → Half
  | 0, entry, _ => entry
  | k + 1, entry, i =>
    tableLoop p k (if (entry ^^^ zext16 i) &&& 1#16 = 1#16 then (entry >>> 1) ^^^ p else entry >>> 1) (i >>> 1)

/-- The table entry of a polynomial: eight iterations from entry 0 (R80, D5). -/
def polyEntry (p : Half) (index : Byte) : Half := tableLoop p 8 0#16 index

/-- `TableEntry(index, sel)` (R80). -/
def tableEntry (index : Byte) (sel : Word) : Half := polyEntry (polyOf sel) index

/-- The per-byte update of R83 over a source of table entries. -/
def byteUpdate (entry : Byte → Half) (byte : Byte) (acc : Half) : Half :=
  (acc >>> 8) ^^^ entry (lowByte (acc ^^^ zext16 byte))

/-- `DnpPre(x) = not16(swap16(x))` (R87). -/
def dnpPre (x : Half) : Half := not16 (swap16 x)

/-- `DnpPost(x) = swap16(not16(x))` (R87). -/
def dnpPost (x : Half) : Half := swap16 (not16 x)

/-- The accumulator the bytes of a buffer are processed from: the DNP3 pre-transform where the input accumulator is not zero
(R88). -/
def bufferStart (sel : Word) (acc : Half) : Half := if isDNP sel && acc != 0#16 then dnpPre acc else acc

/-- The value returned from the accumulator after the bytes of a buffer: the DNP3 post-transform, unconditionally for DNP3
(R88). -/
def bufferEnd (sel : Word) (a : Half) : Half := if isDNP sel then dnpPost a else a

/-- The buffer update of R88 over a source of table entries. -/
def bufferUpdate (entry : Byte → Half) (sel : Word) (data : List Byte) (acc : Half) : Half :=
  bufferEnd sel (data.foldl (fun a b => byteUpdate entry b a) (bufferStart sel acc))

/-- `ContinueByte16(sel, byte, acc)` (R83); no DNP3 transform, whatever the selector. -/
def continueByte16 (sel : Word) (byte : Byte) (acc : Half) : Half := byteUpdate (tableEntry · sel) byte acc

/-- `ContinueBuffer16(sel, data, acc)` (R88). -/
def continueBuffer16 (sel : Word) (data : List Byte) (acc : Half) : Half :=
  bufferUpdate (tableEntry · sel) sel data acc

/-- `Calculate(sel, data) = ContinueBuffer(sel, data, initialValueOf(sel))` (R90). -/
def calculate16 (sel : Word) (data : List Byte) : Half := continueBuffer16 sel data (initialValueOf sel)

/-- One round of the bit-serial reflected update of R85. -/
def bitRound16 (p a : Half) : Half := if a &&& 1#16 = 1#16 then (a >>> 1) ^^^ p else a >>> 1

/-- The bit-serial reflected update of R85: a law's other side, not a definition the machine uses. -/
def bitSerial16 (sel : Word) (byte : Byte) (acc : Half) : Half :=
  (bitRound16 (polyOf sel))^[8] (acc ^^^ zext16 byte)

end Sys2Proof.Machine
end

