-- ==== Sys2Proof/Machine/Cache.lean ====
section
/-! DEFINITION. The table cache (10_state.md rules R28 and R29, 70_reset_and_hazards.md rule R165): a command of a deployment
whose strategy is `cached` completes the table of its polynomial and then reads its entries from it. -/

namespace Sys2Proof.Machine

/-- The complete table of a polynomial: entry i is `TableEntry(i, sel)` for every i in 0..255 (R28). -/
def fullTable (p : Half) : List Half := (List.range 256).map fun i => polyEntry p (BitVec.ofNat 8 i)

/-- The stored entries of a polynomial's table; none stored where the cache has no table of it. -/
def cachedEntries (p : Half) : List CachedTable → List Half
  | [] => []
  | t :: ts => if t.poly = p then t.entries else cachedEntries p ts

/-- A table completely built; a built table is never changed, an unfinished one is built to the end (R28, R165). -/
def CachedTable.complete (t : CachedTable) : CachedTable :=
  if t.entries.length = 256 then t else { t with entries := fullTable t.poly }

/-- The cache with the table of polynomial `p` complete (R165). -/
def completeTable (p : Half) : List CachedTable → List CachedTable
  | [] => [{ poly := p, entries := fullTable p }]
  | t :: ts =>
    if p.toNat < t.poly.toNat then { poly := p, entries := fullTable p } :: t :: ts
    else if t.poly = p then t.complete :: ts
    else t :: completeTable p ts

/-- What the spec says of a cache: one table a polynomial, each entry built so far equal to R80's value (R28). A partly built
table is a prefix of the complete one, the model's choice (log 20). The tables are
listed by polynomial, strictly rising, so that equal caches are equal lists. -/
def cacheWf (c : List CachedTable) : Bool :=
  decide ((c.map fun t => t.poly.toNat).Pairwise (· < ·)) &&
    c.all fun t => decide (t.entries = (fullTable t.poly).take t.entries.length)

/-- Have the table of a selector's polynomial ready before an entry of it is read (R165); nothing to do on the fly. -/
def State.withTable (s : State) (sel : Word) : State :=
  match s.strategy with
  | .onTheFly => s
  | .cached => { s with cache := completeTable (polyOf sel) s.cache }

/-- The table entry a command reads: computed on the fly, or the stored one in its place (R8, R94). An entry not stored is
computed; after `withTable` every entry is stored. -/
def State.entry (s : State) (sel : Word) (index : Byte) : Half :=
  match s.strategy with
  | .onTheFly => tableEntry index sel
  | .cached => ((cachedEntries (polyOf sel) s.cache)[index.toNat]?).getD (tableEntry index sel)

end Sys2Proof.Machine
end

