-- ==== Sys2Proof/Machine/Crc16.lean ====
section
/-! DEFINITION. The meanings of the four CRC16 commands (40_crc16.md rules R82, R84, R89, R90). Each has the table of its
polynomial ready (70_reset_and_hazards.md rule R165), computes over the entries the deployment reads, and delivers a 16-bit
result. None writes a flag, raises an exception or has any other effect (20_memory.md rule R43, 60_exceptions.md rule R140). -/

namespace Sys2Proof.Machine

/-- CRC16.ENTRY: `result <- TableEntry(index, sel)` (R82). -/
def execCrc16Entry (index : Byte) (sel : Word) (s : State) : Outcome :=
  let s := s.withTable sel
  .next (s.deliver (.half (s.entry sel index)))

/-- CRC16.BYTE: `result <- ContinueByte16(sel, byte, acc)` (R84). -/
def execCrc16Byte (sel : Word) (byte : Byte) (acc : Half) (s : State) : Outcome :=
  let s := s.withTable sel
  .next (s.deliver (.half (byteUpdate (s.entry sel) byte acc)))

/-- CRC16.BUF: `result <- ContinueBuffer16(sel, data, acc)` (R89). -/
def execCrc16Buf (sel : Word) (data : List Byte) (acc : Half) (s : State) : Outcome :=
  let s := s.withTable sel
  .next (s.deliver (.half (bufferUpdate (s.entry sel) sel data acc)))

/-- CRC16.CALC: `result <- ContinueBuffer16(sel, data, sel[31:16])` (R90). -/
def execCrc16Calc (sel : Word) (data : List Byte) (s : State) : Outcome :=
  let s := s.withTable sel
  .next (s.deliver (.half (bufferUpdate (s.entry sel) sel data (initialValueOf sel))))

end Sys2Proof.Machine
end

