-- ==== Sys2Proof/Machine/Crc8.lean ====
section
/-! DEFINITION. The CRC8 engine (41_crc8.md): the MSB-first bit-serial update (rule R110), with no table and no reflected mode
(R114), and the meanings of its two commands (R111, R112). -/

namespace Sys2Proof.Machine

/-- The loop of R110, `k` iterations, on the accumulator and the shifting data byte. -/
def crc8Loop (poly : Byte) : Nat → Byte → Byte → Byte
  | 0, a, _ => a
  | k + 1, a, d =>
    let temp := (a &&& 0x80#8) ^^^ (if d &&& 0x80#8 ≠ 0#8 then 0x80#8 else 0x00#8)
    crc8Loop poly k (if temp ≠ 0#8 then (a <<< 1) ^^^ poly else a <<< 1) (d <<< 1)

/-- `ContinueByte8(poly, byte, acc)` (R110). -/
def continueByte8 (poly byte acc : Byte) : Byte := crc8Loop poly 8 acc byte

/-- The accumulator after every byte of a buffer, in order (R112, R113 `fold`). -/
def fold8 (poly : Byte) (data : List Byte) (acc : Byte) : Byte :=
  data.foldl (fun a b => continueByte8 poly b a) acc

/-- The one-shot CRC8 of R112. -/
def calculate8 (poly init xorOut : Byte) (data : List Byte) : Byte := fold8 poly data init ^^^ xorOut

/-- One round of `Step8` (R115). -/
def bitRound8 (poly x : Byte) : Byte := if x.getLsbD 7 then (x <<< 1) ^^^ poly else x <<< 1

/-- `Step8(poly, x)` (R115): a law's other side, not a definition the machine uses. -/
def step8 (poly x : Byte) : Byte := (bitRound8 poly)^[8] x

/-- CRC8.BYTE: `result <- ContinueByte8(poly, byte, acc)` (R111); neither the initial value nor xorOut is applied. -/
def execCrc8Byte (poly byte acc : Byte) (s : State) : Outcome :=
  .next (s.deliver (.byte (continueByte8 poly byte acc)))

/-- CRC8.CALC: `result <- a xor xorOut` with a the accumulator after the buffer, started at `init` (R112). -/
def execCrc8Calc (poly init xorOut : Byte) (data : List Byte) (s : State) : Outcome :=
  .next (s.deliver (.byte (calculate8 poly init xorOut data)))

end Sys2Proof.Machine
end

