-- ==== Sys2Proof/Machine/Dispatch.lean ====
section
/-! DEFINITION. One arm per command: its meaning (30_encoding.md rule R64 names the rule of each). -/

namespace Sys2Proof.Machine

def exec (i : Instr) (s : State) : Host.Outcome State Fault Refusal :=
  match i with
  -- CRC16 engine
  | .crc16Entry index sel => Sys2Proof.Machine.execCrc16Entry index sel s
  | .crc16Byte sel byte acc => Sys2Proof.Machine.execCrc16Byte sel byte acc s
  | .crc16Buf sel data acc => Sys2Proof.Machine.execCrc16Buf sel data acc s
  | .crc16Calc sel data => Sys2Proof.Machine.execCrc16Calc sel data s
  -- CRC8 engine
  | .crc8Byte poly byte acc => Sys2Proof.Machine.execCrc8Byte poly byte acc s
  | .crc8Calc poly init xorOut data => Sys2Proof.Machine.execCrc8Calc poly init xorOut data s
  -- bit utilities
  | .popcnt32 value => Sys2Proof.Machine.execPopcnt32 value s
  | .popcnt16 value => Sys2Proof.Machine.execPopcnt16 value s
  | .rev8 value => Sys2Proof.Machine.execRev8 value s

end Sys2Proof.Machine
end

