-- ==== Sys2Proof/Machine/Serve.lean ====
section
/-! DEFINITION. Serving the ports: which port moves, what its received bytes begin with, and what is done about it. This is all of
`step`, in a file a repair can mend. -/

namespace Sys2Proof.Machine

/-- What the bytes received on port `p` begin with. -/
def State.fetch (s : State) (p : Nat) : Decoded := decode (s.port p).rx

/-- Received bytes that enable a step: a complete frame, or a reserved opcode, which is reported at once even if further bytes
never arrive (R146). An incomplete frame enables none (R69). -/
def startsFrame (bytes : List Byte) : Bool :=
  match decode bytes with
  | .command _ _ => true
  | .illegalCommand _ _ => true
  | .incomplete => false

/-- The numbers of the ports with an enabled step. -/
def State.readyPorts (s : State) : List Nat := (s.ports.filter fun e => startsFrame e.2.rx).map Prod.fst

/-- The port that moves next: the only ready one, or one that free values choose among several (R55, R146, R168; log 4). -/
def State.pickPort (s : State) : Option Nat :=
  match s.readyPorts with
  | [] => none
  | [p] => some p
  | p :: q :: more => choosePort s.picks (p :: q :: more)

/-- Serve port `p`: perform the command its bytes begin with (R50), or answer IllegalCommand (R141). An incomplete frame is left
as it is (R69). -/
def State.servePort (s : State) (p : Nat) : Outcome :=
  match s.fetch p with
  | .command i rest => exec i (s.beginFrame p rest)
  | .illegalCommand _ rest => .next (s.beginFrame p rest).illegalCommand
  | .incomplete => .next s

/-- One step of CORE. Where no port has an enabled step CORE waits, and its state stays as it is (R69, R154; log 9). -/
def State.serveNext (s : State) : Outcome :=
  match s.pickPort with
  | none => .next s
  | some p => s.servePort p

/-- Put a frame in front of the bytes of the port that moves next, or of port 0 where none is ready, so that the very next step
serves it (log 16). -/
def State.placeFrame (s : State) (frame : List Byte) : State :=
  let p := s.pickPort.getD 0
  s.setPort p { s.port p with rx := frame ++ (s.port p).rx }

end Sys2Proof.Machine
end

