-- ==== Sys2Proof/Machine/Step.lean ====
section
/-! DEFINITION. One step of CORE, and how the pipeline places an instruction. -/

namespace Sys2Proof.Machine

/-- One step: serve one frame of one port (30_encoding.md rule R63, 20_memory.md rule R50), or wait. -/
def step (s : State) : Host.Outcome State Fault Refusal := s.serveNext

/-- The state with the frame whose first `nbits` bits are `w`, and whose other bits are zero, received where the next step takes
its frame. CORE fetches nothing (R41): this stands for a host sending the frame (log 16). -/
def State.withFetchWord (s : State) (nbits w : Nat) : State := s.placeFrame (frameOfWord nbits w)

end Sys2Proof.Machine
end

