-- ==== Sys2Proof/Machine/Answer.lean ====
section
/-! DEFINITION. What CORE owes a host, as a function of the bytes the host sends on one port: every command's result is a function
of its operands alone (10_state.md rule R20), responses come one a frame and in order (20_memory.md rule R50), and the bytes of an
incomplete frame are answered by nothing (30_encoding.md rule R69). The machine does not use this file: claims compare it with
the machine. -/

namespace Sys2Proof.Machine

/-- The result of a command as a function of its operands alone (R20). -/
def resultOf : Instr → Result
  | .crc16Entry index sel => .half (tableEntry index sel)
  | .crc16Byte sel byte acc => .half (continueByte16 sel byte acc)
  | .crc16Buf sel data acc => .half (continueBuffer16 sel data acc)
  | .crc16Calc sel data => .half (calculate16 sel data)
  | .crc8Byte poly byte acc => .byte (continueByte8 poly byte acc)
  | .crc8Calc poly init xorOut data => .byte (calculate8 poly init xorOut data)
  | .popcnt32 value => .word (popCount32 value)
  | .popcnt16 value => .half (popCount16 value)
  | .rev8 value => .byte (rev8 value)

/-- The number a result stands for, as a host binds it to a name (R70). -/
def Result.toNat : Result → Nat
  | .byte v => v.toNat
  | .half v => v.toNat
  | .word v => v.toNat

/-- The responses to the first `k` frames of a byte stream, or to all of its complete frames if it has fewer (R50, R63, R141). -/
def answersUpTo : Nat → List Byte → List Response
  | 0, _ => []
  | k + 1, bytes =>
    match decode bytes with
    | .command i rest => .ok (resultOf i) :: answersUpTo k rest
    | .illegalCommand _ rest => .illegal :: answersUpTo k rest
    | .incomplete => []

/-- The bytes a byte stream leaves after its first `k` frames. -/
def leftAfter : Nat → List Byte → List Byte
  | 0, bytes => bytes
  | k + 1, bytes =>
    match decode bytes with
    | .command _ rest => leftAfter k rest
    | .illegalCommand _ rest => leftAfter k rest
    | .incomplete => bytes

/-- The responses CORE owes for a byte stream: one for each complete frame and each reserved opcode, in order. A stream has at most
as many frames as bytes. -/
def answersTo (bytes : List Byte) : List Response := answersUpTo bytes.length bytes

/-- The bytes of a stream that belong to no complete frame: an incomplete frame at its end (R69). -/
def leftOver (bytes : List Byte) : List Byte := leftAfter bytes.length bytes

end Sys2Proof.Machine
end

