-- ==== Sys2Proof/Machine/Assembler.lean ====
section
/-! DEFINITION. The assembler of 30_encoding.md rules R70 and R71 on parsed lines: operands in the source's signature order, named
constants, host values, and the pseudo-instructions with their expansions. A host-side notation: CORE itself sees frames only. -/

namespace Sys2Proof.Machine

/-- A numeric operand (R70). -/
inductive NumArg where
  /-- A decimal or hex literal. -/
  | lit (n : Nat)
  /-- `CRC16_MODBUS` (R71, R91). -/
  | crc16Modbus
  /-- `CRC16_DNP` (R71, R91). -/
  | crc16Dnp
  /-- The host value name `tK`. -/
  | host (k : Nat)
deriving DecidableEq, Repr

/-- A data operand (R70). -/
inductive DataArg where
  /-- A quoted ASCII string: the bytes are the ASCII codes, no terminator. -/
  | ascii (chars : List Char)
  /-- A brace list of hex bytes. -/
  | hex (values : List Nat)
deriving DecidableEq, Repr

/-- A command or a pseudo-instruction as it is written (R70, R71). -/
inductive Asm where
  | crc16Entry (index sel : NumArg)
  | crc16Byte (sel byte acc : NumArg)
  | crc16Buf (sel : NumArg) (data : DataArg) (acc : NumArg)
  | crc16Calc (sel : NumArg) (data : DataArg)
  | crc8Byte (poly byte acc : NumArg)
  | crc8Calc (poly init xorOut : NumArg) (data : DataArg)
  | popcnt32 (value : NumArg)
  | popcnt16 (value : NumArg)
  | rev8 (value : NumArg)
  | modbus (data : DataArg)
  | dnp (data : DataArg)
  | smbus (data : DataArg)
  /-- `crc8.cont`; R71 gives it with a brace list only, and that it takes a quoted string too is the model's choice (log 17). -/
  | cont (poly : NumArg) (data : DataArg) (acc : NumArg)
deriving DecidableEq, Repr

/-- The host values bound so far, the newest first. They are host state, not CORE registers (R70). -/
abbrev HostValues := List (Nat × Nat)

/-- The value of a numeric operand; none for a host value not bound earlier (R70). Of a name bound more than once the newest binding
counts: the model's choice, the spec does not speak of it (log 17). -/
def NumArg.value (env : HostValues) : NumArg → Option Nat
  | .lit n => some n
  | .crc16Modbus => some Config.modbusSelector.toNat
  | .crc16Dnp => some Config.dnpSelector.toNat
  | .host k => env.lookup k

/-- A number in a field of `w` bits: rejected where it does not fit, never truncated (R70). -/
def fit (w : Nat) (n : Nat) : Option (BitVec w) := if n < 2 ^ w then some (BitVec.ofNat w n) else none

/-- A numeric operand in a field of `w` bits. -/
def NumArg.fit (w : Nat) (env : HostValues) (a : NumArg) : Option (BitVec w) :=
  (a.value env).bind (Sys2Proof.Machine.fit w)

/-- A list of results, none where one of them is. -/
def allSome {α : Type} : List (Option α) → Option (List α)
  | [] => some []
  | x :: xs => x.bind fun a => (allSome xs).map (a :: ·)

/-- The bytes of a data operand; a character outside ASCII, a byte of 256 or more, and a buffer longer than a frame can carry are
rejected (R62, R70). The bytes of `crc8.cont` go into no buffer field and R71 gives no bound: that the same bound holds for them
is the model's choice (log 17). -/
def DataArg.bytes (d : DataArg) : Option (List Byte) :=
  let raw := match d with
    | .ascii chars => chars.map fun c => if c.toNat < 128 then some (BitVec.ofNat 8 c.toNat) else none
    | .hex values => values.map (Sys2Proof.Machine.fit 8)
  (allSome raw).bind fun bytes => if bufferFits bytes then some bytes else none

/-- The commands of `crc8.cont`: one CRC8.BYTE a byte, each with the previous result as its accumulator (R71). -/
def contCommands (poly : Byte) : List Byte → Byte → List Instr
  | [], _ => []
  | b :: bs, acc => .crc8Byte poly b acc :: contCommands poly bs (continueByte8 poly b acc)

/-- The commands a line stands for, in the order they are sent; none where the assembler rejects it (R70, R71). `crc8.cont` over no byte
sends no field, and its polynomial and accumulator are still held to 8 bits: the model's choice (log 17). -/
def Asm.assemble (env : HostValues) : Asm → Option (List Instr)
  | .crc16Entry index sel =>
    (index.fit 8 env).bind fun index => (sel.fit 32 env).map fun sel => [.crc16Entry index sel]
  | .crc16Byte sel byte acc =>
    (sel.fit 32 env).bind fun sel => (byte.fit 8 env).bind fun byte => (acc.fit 16 env).map fun acc =>
      [.crc16Byte sel byte acc]
  | .crc16Buf sel data acc =>
    (sel.fit 32 env).bind fun sel => data.bytes.bind fun data => (acc.fit 16 env).map fun acc =>
      [.crc16Buf sel data acc]
  | .crc16Calc sel data =>
    (sel.fit 32 env).bind fun sel => data.bytes.map fun data => [.crc16Calc sel data]
  | .crc8Byte poly byte acc =>
    (poly.fit 8 env).bind fun poly => (byte.fit 8 env).bind fun byte => (acc.fit 8 env).map fun acc =>
      [.crc8Byte poly byte acc]
  | .crc8Calc poly init xorOut data =>
    (poly.fit 8 env).bind fun poly => (init.fit 8 env).bind fun init => (xorOut.fit 8 env).bind fun xorOut =>
      data.bytes.map fun data => [.crc8Calc poly init xorOut data]
  | .popcnt32 value => (value.fit 32 env).map fun value => [.popcnt32 value]
  | .popcnt16 value => (value.fit 32 env).map fun value => [.popcnt16 value]
  | .rev8 value => (value.fit 8 env).map fun value => [.rev8 value]
  | .modbus data => data.bytes.map fun data => [.crc16Calc Config.modbusSelector data]
  | .dnp data => data.bytes.map fun data => [.crc16Calc Config.dnpSelector data]
  | .smbus data => data.bytes.map fun data => [.crc8Calc 0x07#8 0x00#8 0x00#8 data]
  | .cont poly data acc =>
    (poly.fit 8 env).bind fun poly => data.bytes.bind fun data => (acc.fit 8 env).map fun acc =>
      contCommands poly data acc

/-- The value a line has for the host: the result of its last command; for `crc8.cont` over no byte the accumulator it was given
(R71). -/
def Asm.hostValue (env : HostValues) (a : Asm) : Option Nat :=
  (a.assemble env).bind fun is =>
    match is.getLast?, a with
    | some i, _ => some (resultOf i).toNat
    | none, .cont _ _ acc => acc.value env
    | none, _ => none

/-- A line of a program: a command, whose value may be bound to a host value name (R70). -/
structure AsmLine where
  bind : Option Nat
  cmd : Asm
deriving DecidableEq, Repr

/-- The host values after a line; none where the assembler rejects it. A name may be bound again, and the newest binding then counts: the
model's choice, the spec does not speak of it (log 17). The operands of a line are read before its own name is bound, since R70
wants a name bound earlier. -/
def AsmLine.run (env : HostValues) (l : AsmLine) : Option HostValues :=
  (l.cmd.hostValue env).map fun v =>
    match l.bind with
    | some k => (k, v) :: env
    | none => env

end Sys2Proof.Machine
end

