-- ==== Sys2Proof/Machine/AsmText.lean ====
section
/-! DEFINITION. The text of an assembly line (30_encoding.md rule R70), read as a list of characters: an optional `tK =`, the
mnemonic, and the operands with commas between them. Blanks may stand between any two of these, and a semicolon begins a comment,
as in the programs of 95_test_vectors.md section 5 (log 17). -/

namespace Sys2Proof.Machine

/-- The pieces of a line. -/
inductive Token where
  | word (chars : List Char)
  | comma
  | equals
  | quoted (chars : List Char)
  | braced (words : List (List Char))
deriving DecidableEq, Repr

/-- Where the reader of a line stands: outside, inside quotes, or inside braces; with the characters of the piece it is reading, the
newest first. -/
inductive LexMode where
  | plain (word : List Char)
  | inQuotes (chars : List Char)
  | inBraces (words : List (List Char)) (word : List Char)
deriving DecidableEq, Repr

/-- The opening and the closing brace, written by their ASCII codes. -/
def openBrace : Char := Char.ofNat 0x7B
def closeBrace : Char := Char.ofNat 0x7D

/-- A blank. -/
def isBlank (c : Char) : Bool := c == ' ' || c == '\t'

/-- End a word, if one was begun. -/
def flushWord (word : List Char) (ts : List Token) : List Token :=
  if word.isEmpty then ts else .word word.reverse :: ts

/-- End a word of a brace list, if one was begun. -/
def flushBraced (words : List (List Char)) (word : List Char) : List (List Char) :=
  if word.isEmpty then words else word.reverse :: words

/-- The pieces of a line; none where quotes or braces do not close. A blank ends a word, so hex digits grouped by a space, as R9 and the
example of R123 print them, are two words: the model's choice, R70 does not speak of it (log 17). -/
def lex : LexMode → List Char → Option (List Token)
  | .plain word, [] => some (flushWord word [])
  | .inQuotes _, [] => none
  | .inBraces _ _, [] => none
  | .plain word, c :: cs =>
    if c = ';' then some (flushWord word [])
    else if c = '"' then (lex (.inQuotes []) cs).map (flushWord word)
    else if c = openBrace then (lex (.inBraces [] []) cs).map (flushWord word)
    else if c = ',' then (lex (.plain []) cs).map fun ts => flushWord word (.comma :: ts)
    else if c = '=' then (lex (.plain []) cs).map fun ts => flushWord word (.equals :: ts)
    else if isBlank c then (lex (.plain []) cs).map (flushWord word)
    else lex (.plain (c :: word)) cs
  | .inQuotes chars, c :: cs =>
    if c = '"' then (lex (.plain []) cs).map (.quoted chars.reverse :: ·)
    else lex (.inQuotes (c :: chars)) cs
  | .inBraces words word, c :: cs =>
    if c = closeBrace then (lex (.plain []) cs).map (.braced (flushBraced words word).reverse :: ·)
    else if isBlank c then lex (.inBraces (flushBraced words word) []) cs
    else lex (.inBraces words (c :: word)) cs

/-- The value of a digit in a base; none for another character. -/
def digitValue (base : Nat) (c : Char) : Option Nat :=
  let v := c.toNat
  let d := if 48 ≤ v && v ≤ 57 then v - 48 else if 65 ≤ v && v ≤ 70 then v - 55 else if 97 ≤ v && v ≤ 102 then v - 87 else 16
  if d < base then some d else none

/-- A number in a base, most significant digit first; at least one digit. -/
def numberOf (base : Nat) (chars : List Char) : Option Nat :=
  if chars.isEmpty then none
  else (allSome (chars.map (digitValue base))).map fun ds => ds.foldl (fun n d => n * base + d) 0

/-- A numeric operand: a decimal or `0x` hex literal, a named constant, or a host value name (R70). -/
def numArgOf (word : List Char) : Option NumArg :=
  if word = "CRC16_MODBUS".toList then some .crc16Modbus
  else if word = "CRC16_DNP".toList then some .crc16Dnp
  else match word with
    | 't' :: ds => (numberOf 10 ds).map .host
    | '0' :: 'x' :: ds => (numberOf 16 ds).map .lit
    | ds => (numberOf 10 ds).map .lit

/-- An operand: a number or data. -/
inductive AsmArg where
  | num (a : NumArg)
  | data (d : DataArg)
deriving DecidableEq, Repr

/-- The operand a piece of a line is. A hex byte may have any number of digits, at least one, as long as its value is a byte
(`DataArg.bytes`): the model's choice, the spec shows two digits only (log 17). -/
def Token.arg : Token → Option AsmArg
  | .word w => (numArgOf w).map .num
  | .quoted cs => some (.data (.ascii cs))
  | .braced ws => (allSome (ws.map (numberOf 16))).map fun vs => .data (.hex vs)
  | .comma => none
  | .equals => none

/-- The operands of a line: pieces with commas between them. Two words with no comma between them are no operand, so a literal with a
space among its digits is rejected: the model's choice (log 17). -/
def argsOf : List Token → Option (List AsmArg)
  | [] => some []
  | [t] => t.arg.map ([·])
  | t :: .comma :: u :: ts => t.arg.bind fun a => (argsOf (u :: ts)).map (a :: ·)
  | _ :: _ :: _ => none

/-- The forms of R70 and R71 that take a mnemonic with these operands; none for another mnemonic or other operands. That `crc8.cont`
takes any data operand, a quoted string too, is the model's choice: R71 gives it with a brace list only (log 17). -/
def asmOf (mnemonic : List Char) (args : List AsmArg) : Option Asm :=
  match args with
  | [.num a, .num b] =>
    if mnemonic = "crc16.entry".toList then some (.crc16Entry a b) else none
  | [.num a, .num b, .num c] =>
    if mnemonic = "crc16.byte".toList then some (.crc16Byte a b c)
    else if mnemonic = "crc8.byte".toList then some (.crc8Byte a b c)
    else none
  | [.num a, .data d, .num c] =>
    if mnemonic = "crc16.buf".toList then some (.crc16Buf a d c)
    else if mnemonic = "crc8.cont".toList then some (.cont a d c)
    else none
  | [.num a, .data d] =>
    if mnemonic = "crc16.calc".toList then some (.crc16Calc a d) else none
  | [.num a, .num b, .num c, .data d] =>
    if mnemonic = "crc8.calc".toList then some (.crc8Calc a b c d) else none
  | [.num a] =>
    if mnemonic = "popcnt32".toList then some (.popcnt32 a)
    else if mnemonic = "popcnt16".toList then some (.popcnt16 a)
    else if mnemonic = "rev8".toList then some (.rev8 a)
    else none
  | [.data d] =>
    if mnemonic = "crc16.modbus".toList then some (.modbus d)
    else if mnemonic = "crc16.dnp".toList then some (.dnp d)
    else if mnemonic = "crc8.smbus".toList then some (.smbus d)
    else none
  | _ => none

/-- The name before an equals sign: a host value name. -/
def bindOf (word : List Char) : Option Nat :=
  match word with
  | 't' :: ds => numberOf 10 ds
  | _ => none

/-- Read one assembly line (R70); none where it is no line of the syntax, an empty line or one that is all comment included (log 17). -/
def parseLine (line : List Char) : Option AsmLine :=
  (lex (.plain []) line).bind fun ts =>
    match ts with
    | .word t :: .equals :: .word m :: rest =>
      (bindOf t).bind fun k => (argsOf rest).bind fun as => (asmOf m as).map fun a => { bind := some k, cmd := a }
    | .word m :: rest => (argsOf rest).bind fun as => (asmOf m as).map fun a => { bind := none, cmd := a }
    | _ => none

end Sys2Proof.Machine
end

