-- ==== Sys2Proof/Machine/Caller.lean ====
section
/-! DEFINITION. What a host can do to CORE (70_reset_and_hazards.md rule R169): send bytes, take responses, reset. Each lands
between two steps. -/

namespace Sys2Proof.Machine

/-- Send bytes on a port, as many of a frame or of several frames as the host likes (R60, R169). None: there is no such port
(R152; log 15). -/
def State.callerSend (s : State) (p : Nat) (bytes : List Byte) : Option State :=
  if p < Config.nPorts then some (s.receive p bytes) else none

/-- Issue a command: send its complete frame (R60, R169). -/
def State.callerIssue (s : State) (p : Nat) (i : Instr) : Option State := s.callerSend p (encode i)

/-- Take the responses sent on a port, oldest first (R50, R63, R169). -/
def State.callerTake (s : State) (p : Nat) : List Response × State :=
  ((s.port p).tx, s.setPort p { s.port p with tx := [] })

/-- A list of ports after reset: the bytes of frames not yet served are dropped, and nothing is sent for them (R160, R161).
Responses sent before the reset are the host's (log 10). -/
def resetPorts : List (Nat × Port) → List (Nat × Port)
  | [] => []
  | (p, x) :: t => consPort p { x with rx := [] } (resetPorts t)

/-- A table after reset: unspecified whether empty, partly built or fully built, so any prefix of what was built
(R32, R162; log 10). That what is left is a prefix is the model's choice (log 20). -/
def CachedTable.afterReset (t : CachedTable) (picks : Nat) : CachedTable :=
  { t with entries := t.entries.take (Config.tableKept picks t.poly) }

/-- Reset (R160 to R162): every port at a frame boundary with no command in progress. -/
def State.callerReset (s : State) : State :=
  { s with
    ports := resetPorts s.ports
    serving := 0
    cache := s.cache.map fun t => t.afterReset s.picks }

end Sys2Proof.Machine
end

