-- ==== Sys2Proof/Machine/Transient.lean ====
section
/-! DEFINITION. The transient state of a command that reads a buffer (10_state.md rule R31): its working accumulator and its
position. No command can read it, and `exec` performs the whole command as one step, which R31 allows (log 3). This file says
what happens meanwhile, so that claims can compare the two. -/

namespace Sys2Proof.Machine

/-- The working accumulator and the position in the buffer of a running command (R31). -/
structure BufferRun (α : Type) where
  acc : α
  pos : Nat
deriving DecidableEq, Repr

/-- A command that begins to read its buffer at index 0 (R42). -/
def BufferRun.start {α : Type} (acc : α) : BufferRun α := { acc := acc, pos := 0 }

/-- Read the byte at the position and go on to the next; at the end of the buffer there is nothing to read (R42). -/
def BufferRun.advance {α : Type} (update : α → Byte → α) (data : List Byte) (r : BufferRun α) : BufferRun α :=
  match data[r.pos]? with
  | some b => { acc := update r.acc b, pos := r.pos + 1 }
  | none => r

/-- The run after `k` bytes. -/
def BufferRun.after {α : Type} (update : α → Byte → α) (data : List Byte) : Nat → BufferRun α → BufferRun α
  | 0, r => r
  | k + 1, r => BufferRun.after update data k (r.advance update data)

end Sys2Proof.Machine
end

