-- ==== Sys2Proof/Safety.lean ====
section
/-! DEFINITION. The terms claims about CORE are stated in: the invariant of a run, what a step may change, what CORE owes a port,
and when two states differ in hidden state only. -/

namespace Sys2Proof.Machine

/-- The invariant of every run: ports in canonical form and none beyond `N_PORTS` (R152), the port being served one of them, and
every stored table entry R80's value (R28). -/
structure Inv (s : State) : Prop where
  ports : portsWf s.ports = true
  serving : s.serving < Config.nPorts
  cache : cacheWf s.cache = true

/-- `t` is `s` after one response on the port being served: that port's received bytes, every other port and every field but the
table cache are as before (R43). -/
structure Delivered (s t : State) (r : Response) : Prop where
  sent : t.port s.serving = { s.port s.serving with tx := (s.port s.serving).tx ++ [r] }
  others : ∀ p, p ≠ s.serving → t.port p = s.port p
  serving : t.serving = s.serving
  picks : t.picks = s.picks
  strategy : t.strategy = s.strategy

/-- The table cache of `t` is that of `s` after a CRC16 command with selector `sel`: unchanged on the fly; with a cache, the table of
the selector's polynomial complete and every other table unchanged (R28, R165). -/
structure TablesAfter (s t : State) (sel : Word) : Prop where
  onTheFly : s.strategy = .onTheFly → t.cache = s.cache
  completed : s.strategy = .cached → cachedEntries (polyOf sel) t.cache = fullTable (polyOf sel)
  others : ∀ q, q ≠ polyOf sel → cachedEntries q t.cache = cachedEntries q s.cache

/-- `t` is `s` with the first frame of port `p` consumed and `rest` left: the start of a command or of IllegalCommand. -/
structure Began (s t : State) (p : Nat) (rest : List Byte) : Prop where
  consumed : t.port p = { s.port p with rx := rest }
  others : ∀ q, q ≠ p → t.port q = s.port q
  serving : t.serving = p
  picks : t.picks = s.picks + 1
  strategy : t.strategy = s.strategy
  cache : t.cache = s.cache

/-- The reserved opcodes, range by range (R68). -/
def reservedOpcode (op : Byte) : Bool :=
  decide (op.toNat ≤ 0x0F) || decide (0x14 ≤ op.toNat ∧ op.toNat ≤ 0x1F) ||
    decide (0x22 ≤ op.toNat ∧ op.toNat ≤ 0x2F) || decide (0x33 ≤ op.toNat)

/-- All the responses a port will have been sent once its received bytes are served, and the bytes then left (R50, R69). -/
def State.promised (s : State) (p : Nat) : List Response × List Byte :=
  ((s.port p).tx ++ answersTo (s.port p).rx, leftOver (s.port p).rx)

/-- The bytes received on all ports and not yet consumed. -/
def State.pendingBytes (s : State) : Nat := (s.ports.map fun e => e.2.rx.length).sum

/-- What hosts may have done to CORE between two steps, short of a reset: sent bytes and taken responses, on any ports, any number of
times (R169). -/
inductive HostActs : State → State → Prop where
  | nothing (s : State) : HostActs s s
  | send (s t u : State) (p : Nat) (bytes : List Byte) : HostActs s t → t.callerSend p bytes = some u → HostActs s u
  | take (s t : State) (p : Nat) : HostActs s t → p < Config.nPorts → HostActs s (t.callerTake p).2

/-- Two states that differ at most in the table strategy and the table cache, the hidden state of CORE (R29). -/
structure SameButTables (s t : State) : Prop where
  ports : s.ports = t.ports
  serving : s.serving = t.serving
  picks : s.picks = t.picks

/-- The length of the frame of a command (R62, R65). -/
def frameBytes : Instr → Nat
  | .crc16Entry _ _ => 6
  | .crc16Byte _ _ _ => 8
  | .crc16Buf _ data _ => 11 + data.length
  | .crc16Calc _ data => 9 + data.length
  | .crc8Byte _ _ _ => 4
  | .crc8Calc _ _ _ data => 8 + data.length
  | .popcnt32 _ => 5
  | .popcnt16 _ => 5
  | .rev8 _ => 2

/-- How many bytes of a frame tell its length: the opcode alone, or the fixed header of a buffer frame, which ends with the buffer
length field (R62). -/
def lengthKnownAfter : Instr → Nat
  | .crc16Entry _ _ => 1
  | .crc16Byte _ _ _ => 1
  | .crc16Buf _ _ _ => 11
  | .crc16Calc _ _ => 9
  | .crc8Byte _ _ _ => 1
  | .crc8Calc _ _ _ _ => 8
  | .popcnt32 _ => 1
  | .popcnt16 _ => 1
  | .rev8 _ => 1

/-- The bytes of a command's result (R63). -/
def resultBytes : Instr → Nat
  | .crc16Entry _ _ => 2
  | .crc16Byte _ _ _ => 2
  | .crc16Buf _ _ _ => 2
  | .crc16Calc _ _ => 2
  | .crc8Byte _ _ _ => 1
  | .crc8Calc _ _ _ _ => 1
  | .popcnt32 _ => 4
  | .popcnt16 _ => 2
  | .rev8 _ => 1

end Sys2Proof.Machine
end

