-- ==== Sys2Proof/Certificates/Slice0/Obligations.lean ====
section
/-! DEFINITION. The statements for the provers. They quantify over every state, so over every number of ports, every table
strategy and every content of the received bytes; `Inv` or `cacheWf` is a premise where a state that no run reaches (a stored
table entry that is not R80's value, say) would make the statement false. -/

open Sys2Proof
open Sys2Proof.Machine

/-! ## Frames (30_encoding.md) -/

/-- The frame of every command decodes to it, with every operand at every value and every buffer a frame can carry, and leaves the
bytes after it: no bit of an encoding is dropped. Rests on R60, R61 and R65 (decision D8). -/
def Obligations.DecodeOfEncodeIsTheCommand : Prop :=
  ∀ (i : Instr) (rest : List Byte), i.wf = true → decode (encode i ++ rest) = .command i rest

/-- Where bytes decode to a command they begin with its frame, and the command is well-formed: each frame has one meaning and no
frame has a bit without one. Rests on R60, R61 and R65 (decision D8). -/
def Obligations.DecodedBytesAreTheFrame : Prop :=
  ∀ (bytes : List Byte) (i : Instr) (rest : List Byte),
    decode bytes = .command i rest → bytes = encode i ++ rest ∧ i.wf = true

/-- Frames written out byte by byte from the layouts of R65: one a family (TF-03, P4 t0, TF-07 of 95_test_vectors.md). -/
def Obligations.WrittenFramesDecode : Prop :=
  decode [0x10#8, 0x80#8, 0x01#8, 0xA0#8, 0xFF#8, 0xFF#8] = .command (.crc16Entry 0x80#8 0xFFFFA001#32) [] ∧
  decode [0x20#8, 0x07#8, 0x31#8, 0x00#8] = .command (.crc8Byte 0x07#8 0x31#8 0x00#8) [] ∧
  decode [0x32#8, 0x12#8] = .command (.rev8 0x12#8) []

/-- R65, every format: the fields stand at the stated offsets, and the bytes after the frame are left (decision D8). -/
def Obligations.FieldLayoutOfEveryFrame : Prop :=
  (∀ index s0 s1 s2 s3 rest, decode (0x10#8 :: index :: s0 :: s1 :: s2 :: s3 :: rest) =
    .command (.crc16Entry index (ofLE32 s0 s1 s2 s3)) rest) ∧
  (∀ s0 s1 s2 s3 byte a0 a1 rest, decode (0x11#8 :: s0 :: s1 :: s2 :: s3 :: byte :: a0 :: a1 :: rest) =
    .command (.crc16Byte (ofLE32 s0 s1 s2 s3) byte (ofLE16 a0 a1)) rest) ∧
  (∀ s0 s1 s2 s3 a0 a1 n0 n1 n2 n3 data rest, (ofLE32 n0 n1 n2 n3).toNat = data.length →
    decode (0x12#8 :: s0 :: s1 :: s2 :: s3 :: a0 :: a1 :: n0 :: n1 :: n2 :: n3 :: (data ++ rest)) =
      .command (.crc16Buf (ofLE32 s0 s1 s2 s3) data (ofLE16 a0 a1)) rest) ∧
  (∀ s0 s1 s2 s3 n0 n1 n2 n3 data rest, (ofLE32 n0 n1 n2 n3).toNat = data.length →
    decode (0x13#8 :: s0 :: s1 :: s2 :: s3 :: n0 :: n1 :: n2 :: n3 :: (data ++ rest)) =
      .command (.crc16Calc (ofLE32 s0 s1 s2 s3) data) rest) ∧
  (∀ poly byte acc rest, decode (0x20#8 :: poly :: byte :: acc :: rest) = .command (.crc8Byte poly byte acc) rest) ∧
  (∀ poly init xorOut n0 n1 n2 n3 data rest, (ofLE32 n0 n1 n2 n3).toNat = data.length →
    decode (0x21#8 :: poly :: init :: xorOut :: n0 :: n1 :: n2 :: n3 :: (data ++ rest)) =
      .command (.crc8Calc poly init xorOut data) rest) ∧
  (∀ v0 v1 v2 v3 rest, decode (0x30#8 :: v0 :: v1 :: v2 :: v3 :: rest) = .command (.popcnt32 (ofLE32 v0 v1 v2 v3)) rest) ∧
  (∀ v0 v1 v2 v3 rest, decode (0x31#8 :: v0 :: v1 :: v2 :: v3 :: rest) = .command (.popcnt16 (ofLE32 v0 v1 v2 v3)) rest) ∧
  (∀ value rest, decode (0x32#8 :: value :: rest) = .command (.rev8 value) rest)

/-- R61: operand fields and results are little-endian, `value = sum of frame[a+j] * 2^(8j)`; the buffer length field too; and buffer
data bytes are not reordered (decision D8). -/
def Obligations.MultiByteFieldsAreLittleEndian : Prop :=
  (∀ b0 b1, (ofLE16 b0 b1).toNat = b0.toNat + b1.toNat * 2 ^ 8) ∧
  (∀ b0 b1 b2 b3, (ofLE32 b0 b1 b2 b3).toNat =
    b0.toNat + b1.toNat * 2 ^ 8 + b2.toNat * 2 ^ 16 + b3.toNat * 2 ^ 24) ∧
  (∀ (v : Half), ∃ b0 b1, (Result.half v).bytes = [b0, b1] ∧ v.toNat = b0.toNat + b1.toNat * 2 ^ 8) ∧
  (∀ (v : Word), ∃ b0 b1 b2 b3, (Result.word v).bytes = [b0, b1, b2, b3] ∧
    v.toNat = b0.toNat + b1.toNat * 2 ^ 8 + b2.toNat * 2 ^ 16 + b3.toNat * 2 ^ 24) ∧
  (∀ (n0 n1 n2 n3 : Byte) (bytes data rest : List Byte),
    fieldBuffer (n0 :: n1 :: n2 :: n3 :: bytes) = some (data, rest) →
      data.length = n0.toNat + n1.toNat * 2 ^ 8 + n2.toNat * 2 ^ 16 + n3.toNat * 2 ^ 24 ∧ bytes = data ++ rest)

/-- R62: each frame has the length its opcode gives, or its opcode and its buffer length field give, and the length is known as
soon as the opcode, or the fixed header of a buffer frame, has arrived (decision D8). -/
def Obligations.FrameLengthIsKnownFromTheHeader : Prop :=
  (∀ (i : Instr) (rest : List Byte), i.wf = true →
    (encode i).length = frameBytes i ∧ frameLength (encode i ++ rest) = some (frameBytes i)) ∧
  (∀ (bytes more : List Byte) (n : Nat), frameLength bytes = some n → frameLength (bytes ++ more) = some n) ∧
  (∀ (i : Instr) (k : Nat), i.wf = true → lengthKnownAfter i ≤ k →
    frameLength ((encode i).take k) = some (frameBytes i))

/-- R67: no operand value is reserved. Once a frame with a defined opcode has all its bytes it decodes to a command, whatever the bytes
of its fields are. -/
def Obligations.NoOperandValueIsIllegal : Prop :=
  ∀ (op : Byte) (bytes : List Byte) (n : Nat), opcodeOf op ≠ none → frameLength (op :: bytes) = some n →
    n ≤ (op :: bytes).length → ∃ i rest, decode (op :: bytes) = .command i rest ∧ rest = (op :: bytes).drop n

/-- A frame is an illegal command exactly when byte 0 is one of the reserved opcodes of R68, and then that one byte is consumed and
the rest is left (decision D10). -/
def Obligations.ReservedOpcodesAreTheIllegalOnes : Prop :=
  ∀ (op : Byte) (bytes : List Byte),
    (reservedOpcode op = true → decode (op :: bytes) = .illegalCommand op bytes) ∧
    (reservedOpcode op = false → ∀ op' rest, decode (op :: bytes) ≠ .illegalCommand op' rest)

/-- R69: a frame that ends early is not a command yet, and where no port has more than such a frame CORE waits: it sends no
response and nothing changes (decision D12). That waiting is a step to the same state is the model's choice (log 9). -/
def Obligations.IncompleteFramesWait : Prop :=
  (∀ (i : Instr) (k : Nat), i.wf = true → k < (encode i).length → decode ((encode i).take k) = .incomplete) ∧
  (∀ s : State, Inv s → (∀ p, s.fetch p = .incomplete) → step s = .next s)

/-! ## A step -/

/-- When the bytes received on the port that moves next decode to a command, the step is that command's meaning on the state with the
frame consumed; what consuming it changes is said whole. -/
def Obligations.StepRunsTheDecodedCommand : Prop :=
  ∀ (s : State) (p : Nat) (i : Instr) (rest : List Byte), Inv s → s.pickPort = some p →
    decode (s.port p).rx = .command i rest →
    step s = exec i (s.beginFrame p rest) ∧ Began s (s.beginFrame p rest) p rest

/-- The port that moves next exists and has a complete frame or a reserved opcode (R146: even if no byte follows it); no port moves
only if none has. Which of several moves is a free value (log 4). -/
def Obligations.ThePortThatMovesIsReady : Prop :=
  ∀ s : State, Inv s →
    (∀ p, s.pickPort = some p → p < Config.nPorts ∧ startsFrame (s.port p).rx = true) ∧
    (s.pickPort = none → ∀ p, startsFrame (s.port p).rx = false)

/-- CORE has no fault state and refuses nothing: from every state a step answers a next state (R140, R144). -/
def Obligations.EveryStepAnswersANextState : Prop := ∀ s : State, ∃ t, step s = .next t

/-- R141: a reserved opcode gets the response frame 01 and only the opcode byte is consumed; nothing else changes, so the next byte on
the port starts a new frame (decision D10). -/
def Obligations.IllegalCommandAnswersAndChangesNothingElse : Prop :=
  ∀ (s : State) (p : Nat) (op : Byte) (rest : List Byte), Inv s → s.pickPort = some p →
    (s.port p).rx = op :: rest → reservedOpcode op = true →
    ∃ t, step s = .next t ∧
      t.port p = { rx := rest, tx := (s.port p).tx ++ [.illegal] } ∧ Response.frame .illegal = [0x01#8] ∧
      (∀ q, q ≠ p → t.port q = s.port q) ∧ t.cache = s.cache ∧ t.strategy = s.strategy

/-- The model's own fields, whatever the frame served is: `serving` names its port and `picks` counts it (logs 4 and 5, the model's
choice); and what arrives on a port or is taken from it leaves them alone. -/
def Obligations.ServedFramesAreCounted : Prop :=
  (∀ (s t : State) (p : Nat), Inv s → s.pickPort = some p → step s = .next t → t.serving = p ∧ t.picks = s.picks + 1) ∧
  (∀ s t : State, HostActs s t → t.serving = s.serving ∧ t.picks = s.picks)

/-- A frame placed as an opcode-table word is the one the very next step runs (log 16). -/
def Obligations.PlacedWordRunsNext : Prop :=
  ∀ (s : State) (nbits w : Nat) (i : Instr), Inv s → decodeTableWord nbits w = some i →
    ∃ p rest, (s.withFetchWord nbits w).pickPort = some p ∧
      step (s.withFetchWord nbits w) = exec i ((s.withFetchWord nbits w).beginFrame p rest)

/-- The invariant holds right after power-on. -/
def Obligations.ResetMeetsTheInvariant : Prop := Inv State.reset

/-- Every step keeps the invariant: the ports stay in canonical form and within `N_PORTS` (R152), and every stored table entry stays
R80's value (R28). -/
def Obligations.StepKeepsTheInvariant : Prop := ∀ s t : State, Inv s → step s = .next t → Inv t

/-- Whatever a host does between steps keeps the invariant (R169). -/
def Obligations.CallerActionsKeepTheInvariant : Prop :=
  ∀ s : State, Inv s →
    (∀ p bytes t, s.callerSend p bytes = some t → Inv t) ∧
    (∀ p, p < Config.nPorts → Inv (s.callerTake p).2) ∧
    Inv s.callerReset

/-- R160: after power-on, and after a reset at any time under either table strategy and with anything left in the table cache, every
port is at a frame boundary and CORE accepts a frame on any port from the first byte (decision D18): the one response the next step
sends is that frame's, so none was owed before. -/
def Obligations.AfterResetEveryPortAcceptsAFrame : Prop :=
  (∀ p, State.reset.port p = { rx := [], tx := [] }) ∧
  (∀ (s : State), Inv s → ∀ p, (s.callerReset.port p).rx = []) ∧
  (∀ (s : State) p i, Inv s → p < Config.nPorts → i.wf = true → ∃ u t, s.callerReset.callerIssue p i = some u ∧ step u = .next t ∧
    (t.port p).rx = [] ∧ (t.port p).tx = (s.callerReset.port p).tx ++ [.ok (resultOf i)] ∧
    ∀ q, q ≠ p → t.port q = s.callerReset.port q) ∧
  (∀ p i, p < Config.nPorts → i.wf = true → ∃ s t, State.reset.callerIssue p i = some s ∧ step s = .next t ∧
    t.port p = { rx := [], tx := [.ok (resultOf i)] })

/-- A frame received in part, or received whole and not served, is abandoned at reset: its bytes are gone and no response is sent for it,
as R161 has it (decision D18). Two clauses are the model's choice: that responses sent before and not yet taken stay (log 10), and
that CORE waiting for a new frame is a step to the same state (log 9). -/
def Obligations.ResetAbandonsUnservedFrames : Prop :=
  ∀ s : State, Inv s →
    (∀ p, s.callerReset.port p = { rx := [], tx := (s.port p).tx }) ∧ step s.callerReset = .next s.callerReset

/-! ## What each command does -/

/-- R20, R43: the response of every command is a function of its operands alone, whatever the state, and it is the command's only
effect on the ports. -/
def Obligations.ResultDependsOnTheOperandsAlone : Prop :=
  ∀ (i : Instr) (s : State), cacheWf s.cache = true →
    ∃ t, exec i s = .next t ∧ Delivered s t (.ok (resultOf i))

/-- R82, CRC16.ENTRY: encoding, result and frame, corner cases, example. What it leaves in the table cache is the model's choice and
stands in `Crc16CommandsCompleteTheirTable`. -/
def Obligations.Crc16EntryCommand : Prop :=
  (∀ index sel, encode (.crc16Entry index sel) = 0x10#8 :: index :: bytesLE32 sel) ∧
  (∀ s index sel, cacheWf s.cache = true → ∃ t, exec (.crc16Entry index sel) s = .next t ∧
    Delivered s t (.ok (.half (tableEntry index sel)))) ∧
  (∀ sel, tableEntry 0x00#8 sel = 0x0000#16 ∧ tableEntry 0x80#8 sel = sel.extractLsb' 0 16) ∧
  (∀ index v, tableEntry index (selectorOf v 0x0000#16) = 0x0000#16) ∧
  (∀ index v v' p, tableEntry index (selectorOf v p) = tableEntry index (selectorOf v' p)) ∧
  tableEntry 0x01#8 0xFFFFA001#32 = 0xC0C1#16 ∧ tableEntry 0xFF#8 0xFFFFA001#32 = 0x4040#16

/-- R84, CRC16.BYTE: encoding, result and frame, corner cases, example. The result is R83's, with no DNP3 transform for any selector.
The table cache: `Crc16CommandsCompleteTheirTable`. -/
def Obligations.Crc16ByteCommand : Prop :=
  (∀ sel byte acc, encode (.crc16Byte sel byte acc) = 0x11#8 :: (bytesLE32 sel ++ byte :: bytesLE16 acc)) ∧
  (∀ s sel byte acc, cacheWf s.cache = true → ∃ t, exec (.crc16Byte sel byte acc) s = .next t ∧
    Delivered s t (.ok (.half ((acc >>> 8) ^^^ tableEntry ((acc ^^^ byte.setWidth 16).extractLsb' 0 8) sel)))) ∧
  (∀ sel, continueByte16 sel 0x00#8 0x0000#16 = 0x0000#16) ∧
  (∀ v byte acc, continueByte16 (selectorOf v 0x0000#16) byte acc = acc >>> 8) ∧
  (∀ sel acc, continueByte16 sel (acc.extractLsb' 0 8) acc = acc >>> 8) ∧
  continueByte16 0xFFFFA001#32 0xFF#8 0xFFFF#16 = 0x00FF#16 ∧
  continueByte16 0xFFFFA001#32 0x31#8 0xFFFF#16 = 0x947E#16

/-- R89, CRC16.BUF: encoding, result and frame, corner cases (a) to (f), example. The table cache: `Crc16CommandsCompleteTheirTable`. -/
def Obligations.Crc16BufCommand : Prop :=
  (∀ sel data acc, encode (.crc16Buf sel data acc) =
    0x12#8 :: (bytesLE32 sel ++ bytesLE16 acc ++ bytesLE32 (BitVec.ofNat 32 data.length) ++ data)) ∧
  (∀ s sel data acc, cacheWf s.cache = true → ∃ t, exec (.crc16Buf sel data acc) s = .next t ∧
    Delivered s t (.ok (.half (continueBuffer16 sel data acc)))) ∧
  (∀ sel acc, isDNP sel = false → continueBuffer16 sel [] acc = acc) ∧
  (∀ acc, acc ≠ 0x0000#16 → continueBuffer16 Config.dnpSelector [] acc = acc) ∧
  continueBuffer16 Config.dnpSelector [] 0x0000#16 = 0xFFFF#16 ∧
  (∀ data, continueBuffer16 Config.dnpSelector data 0x0000#16 = calculate16 Config.dnpSelector data) ∧
  (∀ data, continueBuffer16 Config.dnpSelector data 0xFFFF#16 = continueBuffer16 Config.dnpSelector data 0x0000#16) ∧
  (∀ sel data, isDNP sel = false →
    continueBuffer16 sel data 0x0000#16 = data.foldl (fun a b => continueByte16 sel b a) 0x0000#16) ∧
  continueBuffer16 0xFFFFA001#32 [0x35#8, 0x36#8, 0x37#8, 0x38#8, 0x39#8] 0x30BA#16 = 0x4B37#16

/-- R90, CRC16.CALC: encoding, result and frame, corner cases, example. The table cache: `Crc16CommandsCompleteTheirTable`. -/
def Obligations.Crc16CalcCommand : Prop :=
  (∀ sel data, encode (.crc16Calc sel data) =
    0x13#8 :: (bytesLE32 sel ++ bytesLE32 (BitVec.ofNat 32 data.length) ++ data)) ∧
  (∀ s sel data, cacheWf s.cache = true → ∃ t, exec (.crc16Calc sel data) s = .next t ∧
    Delivered s t (.ok (.half (continueBuffer16 sel data (sel.extractLsb' 16 16))))) ∧
  (∀ sel, isDNP sel = false → calculate16 sel [] = sel.extractLsb' 16 16) ∧
  calculate16 Config.dnpSelector [] = 0xFFFF#16 ∧
  (∀ data, calculate16 0x00000000#32 data = 0x0000#16) ∧
  (∀ v b, calculate16 (selectorOf v 0x0000#16) [b] = v >>> 8) ∧
  (∀ v b b' data, calculate16 (selectorOf v 0x0000#16) (b :: b' :: data) = 0x0000#16) ∧
  calculate16 0xFFFFA001#32 [0x31#8, 0x32#8, 0x33#8, 0x34#8, 0x35#8, 0x36#8, 0x37#8, 0x38#8, 0x39#8] = 0x4B37#16

/-- The table cache after a CRC16 command, on every operand, an empty buffer too: as it was on the fly; under `cached` the table of the
selector's polynomial is complete and every other table is as it was. When a table is built and that it is built whole is the
model's choice (log 11): R165 and R28 only have it complete before an entry is read, and unchanged once built. -/
def Obligations.Crc16CommandsCompleteTheirTable : Prop :=
  ∀ s : State, cacheWf s.cache = true →
    (∀ index sel, ∃ t, exec (.crc16Entry index sel) s = .next t ∧ TablesAfter s t sel) ∧
    (∀ sel byte acc, ∃ t, exec (.crc16Byte sel byte acc) s = .next t ∧ TablesAfter s t sel) ∧
    (∀ sel data acc, ∃ t, exec (.crc16Buf sel data acc) s = .next t ∧ TablesAfter s t sel) ∧
    (∀ sel data, ∃ t, exec (.crc16Calc sel data) s = .next t ∧ TablesAfter s t sel)

/-- R111, CRC8.BYTE: encoding, result and frame, corner cases, example. -/
def Obligations.Crc8ByteCommand : Prop :=
  (∀ poly byte acc, encode (.crc8Byte poly byte acc) = [0x20#8, poly, byte, acc]) ∧
  (∀ s poly byte acc, ∃ t, exec (.crc8Byte poly byte acc) s = .next t ∧
    Delivered s t (.ok (.byte (continueByte8 poly byte acc))) ∧ t.cache = s.cache) ∧
  (∀ poly, continueByte8 poly 0x00#8 0x00#8 = 0x00#8) ∧
  (∀ byte acc, continueByte8 0x00#8 byte acc = 0x00#8) ∧
  (∀ poly acc, continueByte8 poly acc acc = 0x00#8) ∧
  continueByte8 0x07#8 0x31#8 0x00#8 = 0x97#8

/-- R112, CRC8.CALC: encoding, result and frame, corner cases, example. -/
def Obligations.Crc8CalcCommand : Prop :=
  (∀ poly init xorOut data, encode (.crc8Calc poly init xorOut data) =
    0x21#8 :: poly :: init :: xorOut :: (bytesLE32 (BitVec.ofNat 32 data.length) ++ data)) ∧
  (∀ s poly init xorOut data, ∃ t, exec (.crc8Calc poly init xorOut data) s = .next t ∧
    Delivered s t (.ok (.byte (data.foldl (fun a b => continueByte8 poly b a) init ^^^ xorOut))) ∧ t.cache = s.cache) ∧
  (∀ poly init xorOut, calculate8 poly init xorOut [] = init ^^^ xorOut) ∧
  (∀ poly init, calculate8 poly init init [] = 0x00#8) ∧
  (∀ poly init data, calculate8 poly init 0xFF#8 data = ~~~ calculate8 poly init 0x00#8 data) ∧
  (∀ init xorOut b data, calculate8 0x00#8 init xorOut (b :: data) = xorOut) ∧
  calculate8 0x07#8 0x00#8 0x00#8
    [0x31#8, 0x32#8, 0x33#8, 0x34#8, 0x35#8, 0x36#8, 0x37#8, 0x38#8, 0x39#8] = 0xF4#8

/-- R121, POPCNT32: encoding, result and frame, range, corner cases, example. -/
def Obligations.Popcnt32Command : Prop :=
  (∀ value, encode (.popcnt32 value) = 0x30#8 :: bytesLE32 value) ∧
  (∀ s value, ∃ t, exec (.popcnt32 value) s = .next t ∧
    Delivered s t (.ok (.word (BitVec.ofNat 32 (popcount value)))) ∧ t.cache = s.cache) ∧
  (∀ value, (popCount32 value).toNat = popcount value ∧ popcount value ≤ 32) ∧
  popCount32 0x00000000#32 = 0#32 ∧ popCount32 0xFFFFFFFF#32 = 32#32 ∧ popCount32 0x80000000#32 = 1#32 ∧
  popCount32 0x55555555#32 = 16#32 ∧ popCount32 0xAAAAAAAA#32 = 16#32 ∧ popCount32 0x12345678#32 = 13#32

/-- R123, POPCNT16: encoding, result and frame, range, corner cases, example. For operands of 2^16 and above the value is the spec's
decision D7, not the source's (log 12). -/
def Obligations.Popcnt16Command : Prop :=
  (∀ value, encode (.popcnt16 value) = 0x31#8 :: bytesLE32 value) ∧
  (∀ s value, ∃ t, exec (.popcnt16 value) s = .next t ∧
    Delivered s t (.ok (.half (BitVec.ofNat 16 (popcount (value.extractLsb' 0 16))))) ∧ t.cache = s.cache) ∧
  (∀ value : Word, (popCount16 value).toNat = popcount (value.extractLsb' 0 16) ∧ (popCount16 value).toNat ≤ 16) ∧
  popCount16 0x0000FFFF#32 = 16#16 ∧ popCount16 0x00010000#32 = 0#16 ∧ popCount16 0xFFFFFFFF#32 = 16#16 ∧
  popCount16 0x00000000#32 = 0#16 ∧ popCount16 0x00008001#32 = 2#16

/-- R125, REV8: encoding, result and frame, corner cases, example; the fixed points are exactly the sixteen palindromes. -/
def Obligations.Rev8Command : Prop :=
  (∀ value, encode (.rev8 value) = [0x32#8, value]) ∧
  (∀ s value, ∃ t, exec (.rev8 value) s = .next t ∧ Delivered s t (.ok (.byte (rev8 value))) ∧ t.cache = s.cache) ∧
  (∀ value, rev8 value = value ↔ value ∈ [0x00#8, 0x18#8, 0x24#8, 0x3C#8, 0x42#8, 0x5A#8, 0x66#8, 0x7E#8, 0x81#8,
    0x99#8, 0xA5#8, 0xBD#8, 0xC3#8, 0xDB#8, 0xE7#8, 0xFF#8]) ∧
  rev8 0x01#8 = 0x80#8 ∧ rev8 0x12#8 = 0x48#8

/-- R63: one response a command, on the same port: the status byte 00 and the result, little-endian, in its width; an ILLEGAL response
is the one byte 01 (decision D11). -/
def Obligations.ResponseFrameOfEveryCommand : Prop :=
  (∀ (i : Instr) (s : State), cacheWf s.cache = true →
    ∃ t r, exec i s = .next t ∧ (t.port s.serving).tx = (s.port s.serving).tx ++ [r] ∧
      r.frame = 0x00#8 :: (resultOf i).bytes ∧ (resultOf i).bytes.length = resultBytes i) ∧
  (∀ v : Byte, (Result.byte v).bytes = [v]) ∧
  (∀ v : Half, (Result.half v).bytes = [v.extractLsb' 0 8, v.extractLsb' 8 8]) ∧
  (∀ v : Word, (Result.word v).bytes =
    [v.extractLsb' 0 8, v.extractLsb' 8 8, v.extractLsb' 16 8, v.extractLsb' 24 8]) ∧
  (∀ r : Response, (∃ v, r = .ok v ∧ r.frame = 0x00#8 :: v.bytes) ∨ (r = .illegal ∧ r.frame = [0x01#8]))

/-! ## The CRC16 engine (40_crc16.md) -/

/-- R22: the two fields of a selector, and every 32-bit value is one. -/
def Obligations.SelectorPacksInitialAndPolynomial : Prop :=
  (∀ initial poly, initialValueOf (selectorOf initial poly) = initial ∧ polyOf (selectorOf initial poly) = poly) ∧
  (∀ sel, selectorOf (initialValueOf sel) (polyOf sel) = sel) ∧
  (∀ sel : Word, (polyOf sel).toNat = sel.toNat % 2 ^ 16 ∧ (initialValueOf sel).toNat = sel.toNat / 2 ^ 16)

/-- The properties of TableEntry that R81 derives from R80: (a) only the polynomial matters, (b) index 0, (c) index 0x80, (d) polynomial 0,
(e) linear in the index. -/
def Obligations.TableEntryProperties : Prop :=
  (∀ index sel sel', polyOf sel = polyOf sel' → tableEntry index sel = tableEntry index sel') ∧
  (∀ sel, tableEntry 0x00#8 sel = 0x0000#16) ∧
  (∀ sel, tableEntry 0x80#8 sel = polyOf sel) ∧
  (∀ index sel, polyOf sel = 0x0000#16 → tableEntry index sel = 0x0000#16) ∧
  (∀ a b sel, tableEntry (a ^^^ b) sel = tableEntry a sel ^^^ tableEntry b sel)

/-- The table-driven update equals the bit-serial reflected update, for every selector, byte and accumulator: two designs, one
function. R85 derives it from R80 and R83. -/
def Obligations.TableUpdateEqualsBitSerialUpdate : Prop :=
  ∀ sel byte acc, continueByte16 sel byte acc = bitSerial16 sel byte acc

/-- R87: the two DNP3 transforms, each other's inverse and the same function. -/
def Obligations.DnpTransformsUndoEachOther : Prop :=
  (∀ x, dnpPre x = not16 (swap16 x)) ∧ (∀ x, dnpPost x = swap16 (not16 x)) ∧
  (∀ x, dnpPre (dnpPost x) = x) ∧ (∀ x, dnpPost (dnpPre x) = x) ∧ dnpPre = dnpPost

/-- swap16 exchanges the two bytes; it is its own inverse and commutes with not16. R46 derives it from R10. -/
def Obligations.ByteSwapExchangesTheBytes : Prop :=
  (∀ x : Half, (swap16 x).toNat = x.toNat % 256 * 256 + x.toNat / 256) ∧ (∀ x, swap16 (swap16 x) = x) ∧
  (∀ x, swap16 (not16 x) = not16 (swap16 x))

/-- R86: only the one selector `DNP_SELECTOR` is DNP3; its polynomial with another initial value is not (decision D4). Its number stands in
`NamedSelectorsHaveTheirValues`. -/
def Obligations.OnlyTheDnpSelectorIsDnp : Prop :=
  (∀ sel, isDNP sel = true ↔ sel = Config.dnpSelector) ∧
  (∀ initial, initial ≠ initialValueOf Config.dnpSelector →
    isDNP (selectorOf initial (polyOf Config.dnpSelector)) = false)

/-- R88, the buffer update: the pre-transform for DNP3 where the input accumulator is not zero, the bytes in order, the post-transform
for DNP3; every other selector returns the raw accumulator. -/
def Obligations.BufferUpdateOfEverySelector : Prop :=
  (∀ sel data acc, isDNP sel = false →
    continueBuffer16 sel data acc = data.foldl (fun a b => continueByte16 sel b a) acc) ∧
  (∀ sel data acc, isDNP sel = true → acc ≠ 0x0000#16 →
    continueBuffer16 sel data acc = dnpPost (data.foldl (fun a b => continueByte16 sel b a) (dnpPre acc))) ∧
  (∀ sel data, isDNP sel = true →
    continueBuffer16 sel data 0x0000#16 = dnpPost (data.foldl (fun a b => continueByte16 sel b a) 0x0000#16))

/-- The streaming law: for a selector that is not DNP3 a buffer may be split anywhere, and it equals one CRC16.BYTE a byte. R92 derives
it from R88. -/
def Obligations.StreamingLawOfOtherSelectors : Prop :=
  ∀ sel, isDNP sel = false →
    (∀ a b acc, continueBuffer16 sel (a ++ b) acc = continueBuffer16 sel b (continueBuffer16 sel a acc)) ∧
    (∀ a b, calculate16 sel (a ++ b) = continueBuffer16 sel b (calculate16 sel a)) ∧
    (∀ b data acc, continueBuffer16 sel (b :: data) acc = continueBuffer16 sel data (continueByte16 sel b acc))

/-- The resume law of DNP3 and where it fails: from a finalized value other than zero the split is invisible; from zero it is not, on
the buffers the spec names. R93 derives it from R87 and R88. -/
def Obligations.ResumeLawOfDnpAndItsException : Prop :=
  (∀ a b acc, continueBuffer16 Config.dnpSelector a acc ≠ 0x0000#16 →
    continueBuffer16 Config.dnpSelector b (continueBuffer16 Config.dnpSelector a acc) =
      continueBuffer16 Config.dnpSelector (a ++ b) acc) ∧
  calculate16 Config.dnpSelector [0xC7#8, 0x70#8] = 0x0000#16 ∧
  continueBuffer16 Config.dnpSelector [0x01#8] 0x0000#16 = 0xA1C9#16 ∧
  calculate16 Config.dnpSelector [0xC7#8, 0x70#8, 0x01#8] = 0x6BDB#16

/-- R94: every command's response is the same under both table strategies, and with a cache the entry a command reads is a stored one
and is R80's value. -/
def Obligations.TableStrategyNeverShowsInAResult : Prop :=
  (∀ (i : Instr) (s t : State), cacheWf s.cache = true → cacheWf t.cache = true → SameButTables s t →
    ∃ s' t', exec i s = .next s' ∧ exec i t = .next t' ∧ SameButTables s' t') ∧
  (∀ (s : State) (sel : Word) (index : Byte), cacheWf s.cache = true → s.strategy = .cached →
    (cachedEntries (polyOf sel) (s.withTable sel).cache)[index.toNat]? = some (tableEntry index sel) ∧
    (s.withTable sel).entry sel index = tableEntry index sel)

/-! ## The CRC8 engine (41_crc8.md) -/

/-- A one-shot CRC8 over a split buffer is the chain of CRC8.BYTE commands over both parts, with xorOut applied once at the end. R113
derives it from R110 and R112. -/
def Obligations.Crc8StreamsByteByByte : Prop :=
  (∀ poly init xorOut a b,
    calculate8 poly init xorOut (a ++ b) = fold8 poly b (fold8 poly a init) ^^^ xorOut) ∧
  (∀ poly b data acc, fold8 poly (b :: data) acc = fold8 poly data (continueByte8 poly b acc)) ∧
  (∀ poly acc, fold8 poly [] acc = acc)

/-- The update with its separate data byte equals eight shift-and-XOR rounds on the XOR of the two. R115 derives it from R110. -/
def Obligations.Crc8UpdateEqualsStepOfXor : Prop :=
  ∀ poly byte acc, continueByte8 poly byte acc = step8 poly (acc ^^^ byte)

/-! ## Bit utilities (42_bit_utilities.md) -/

/-- R120: the population count is the number of set bits, and the SWAR sequence returns exactly that for every 32-bit value. -/
def Obligations.SwarSequenceCountsTheSetBits : Prop :=
  (∀ v : Word, popCount32 v = BitVec.ofNat 32 (popcount v) ∧ popcount v ≤ 32) ∧
  (∀ v : Word, swar32 v = BitVec.ofNat 32 (popcount v)) ∧
  (∀ v : Word, popcount v = ((List.range 32).filter fun k => v.getLsbD k).length)

/-- R122: the 16-bit count is the count of bits 15:0, which below 2^16 is the count of the whole operand, and the narrow SWAR sequence
returns exactly that. Above, the value is the spec's decision D7 (log 12). -/
def Obligations.NarrowSwarSequenceCountsTheLowHalf : Prop :=
  (∀ v : Word, v.toNat < 2 ^ 16 → (popCount16 v).toNat = popcount v ∧ popcount v ≤ 16) ∧
  (∀ v : Word, (popCount16 v).toNat = popcount (BitVec.ofNat 16 (v.toNat % 2 ^ 16))) ∧
  (∀ v : Word, swar16 v = popCount16 v)

/-- R124: bit i of the result is bit 7-i of the operand. -/
def Obligations.ReversalExchangesTheBits : Prop :=
  ∀ (v : Byte) (i : Nat), i < 8 → (rev8 v).getLsbD i = v.getLsbD (7 - i)

/-- The laws R126 derives: reversal is its own inverse and keeps the population count; the two counts agree below 2^16. -/
def Obligations.BitUtilityLaws : Prop :=
  (∀ v, rev8 (rev8 v) = v) ∧ (∀ v, popcount (rev8 v) = popcount v) ∧
  (∀ v : Word, (popCount32 v).toNat ≤ 32) ∧ (∀ v : Word, (popCount16 v).toNat ≤ 16) ∧
  (∀ v : Word, v.toNat < 2 ^ 16 → (popCount16 v).toNat = (popCount32 v).toNat)

/-! ## Buffers, ports and runs -/

/-- R42: a command reads the bytes of its buffer once each, in order, from index 0 to n-1, and none outside it: its working
accumulator, of whatever width, and its position (R31) after k bytes, and the result as what they are at the end. -/
def Obligations.BuffersAreReadOnceInOrder : Prop :=
  (∀ (α : Type) (update : α → Byte → α) (data : List Byte) (acc : α) (k : Nat), k ≤ data.length →
    BufferRun.after update data k (.start acc) = { acc := (data.take k).foldl update acc, pos := k }) ∧
  (∀ (α : Type) (update : α → Byte → α) (data : List Byte) (acc : α) (k : Nat), data.length ≤ k →
    BufferRun.after update data k (.start acc) = { acc := data.foldl update acc, pos := data.length }) ∧
  (∀ sel data acc, continueBuffer16 sel data acc = bufferEnd sel
    (BufferRun.after (fun a b => continueByte16 sel b a) data data.length (.start (bufferStart sel acc))).acc) ∧
  (∀ poly init xorOut data, calculate8 poly init xorOut data =
    (BufferRun.after (fun a b => continueByte8 poly b a) data data.length (.start init)).acc ^^^ xorOut)

/-- The bytes of a stream may arrive in any pieces, and frames need no gap between them: what CORE owes for a stream is what it owes for
its first part, then what it owes for the unserved rest of that part with the second part. Rests on R60, R69, R167. -/
def Obligations.BytesMayArriveInPieces : Prop :=
  (∀ a b, answersTo (a ++ b) = answersTo a ++ answersTo (leftOver a ++ b)) ∧
  (∀ (i : Instr) (rest : List Byte), i.wf = true → answersTo (encode i ++ rest) = .ok (resultOf i) :: answersTo rest) ∧
  (∀ (op : Byte) (rest : List Byte), reservedOpcode op = true → answersTo (op :: rest) = .illegal :: answersTo rest)

/-- R50, an invariant of every step for every port: what the port has been sent together with what CORE owes for its received bytes. So
each port gets one response a frame, in order, with a value that depends on the frame alone, whichever port the free arbiter picks
and whatever the table cache holds. -/
def Obligations.StepKeepsWhatEveryPortIsOwed : Prop :=
  ∀ s t : State, Inv s → step s = .next t → ∀ p, t.promised p = s.promised p

/-- Where hosts send nothing meanwhile, after at most as many steps as there are unserved bytes each port has been sent exactly the
responses it was owed, its incomplete frame is left, and CORE waits. The bound in steps is the model's choice: a step serves one
frame whatever its length (log 14), where R168 leaves the time unspecified. So is that waiting is a step to the same state (log 9). -/
def Obligations.EveryCompleteFrameIsAnswered : Prop :=
  ∀ (s : State) (k : Nat), Inv s → s.pendingBytes ≤ k →
    ∃ t, core.run k s = .next t ∧ step t = .next t ∧
      ∀ p, t.port p = { rx := leftOver (s.port p).rx, tx := (s.port p).tx ++ answersTo (s.port p).rx }

/-- R168: every complete frame gets its response after finitely many steps, whatever hosts send and take meanwhile, on this port and
on others: no port is starved. `σ k` is the state after `k` steps and `τ k` what hosts made of it before the next one. The j-th
response owed at `σ n` is the one some later step sends. How long it takes rests on free values and is not said (log 4). -/
def Obligations.NoCompleteFrameIsStarved : Prop :=
  ∀ (σ τ : Nat → State) (n p j : Nat) (r : Response), Inv (σ 0) →
    (∀ k, HostActs (σ k) (τ k) ∧ step (τ k) = .next (σ (k + 1))) → (answersTo ((σ n).port p).rx)[j]? = some r →
    ∃ m, n ≤ m ∧ (τ m).pickPort = some p ∧ ((σ (m + 1)).port p).tx = ((τ m).port p).tx ++ [r]

/-- A port's bytes and responses are not touched by a step that serves another port, and what a port has been sent once its bytes are
served depends on that port alone (R55). -/
def Obligations.PortsDoNotInteract : Prop :=
  (∀ (s t : State) (p : Nat), Inv s → step s = .next t → s.pickPort ≠ some p → t.port p = s.port p) ∧
  (∀ (s t : State) (p k m : Nat), Inv s → Inv t → s.port p = t.port p → s.pendingBytes ≤ k → t.pendingBytes ≤ m →
    ∃ s' t' : State, core.run k s = .next s' ∧ core.run m t = .next t' ∧ s'.port p = t'.port p)

/-- The table strategy and the table cache are not observable: two runs that differ in them only stay alike in everything else, step
after step, and neither ever stops. R29 derives it from R28 and R94. -/
def Obligations.TableCacheIsNotObservable : Prop :=
  ∀ (s t : State) (k : Nat), Inv s → Inv t → SameButTables s t →
    ∃ s' t' : State, core.run k s = .next s' ∧ core.run k t = .next t' ∧ SameButTables s' t'

/-- R28: a table built is never changed: an entry stored stays stored with the same value through every step. -/
def Obligations.StoredEntriesNeverChange : Prop :=
  ∀ (s t : State) (p : Half) (i : Nat) (v : Half), Inv s → step s = .next t →
    (cachedEntries p s.cache)[i]? = some v → (cachedEntries p t.cache)[i]? = some v ∧ v = polyEntry p (BitVec.ofNat 8 i)

/-! ## The assembler (30_encoding.md section 5) -/

/-- The assembler accepts a number that fits its field, rejects one that does not, and never truncates one, on every numeric operand of
every form: a line assembles exactly when each operand has a value of its field's width, and then to the commands with those
values (part of R70). A host value counts as the number bound to it, a hex byte of a brace list as a number in 8 bits. That a
character above 127 and a buffer no frame can carry are rejected, that `crc8.cont` takes a quoted string too, and that over no byte
or over more than a frame can carry it holds its operands to the same bounds, is the model's choice (log 17). -/
def Obligations.AssemblerNeverTruncates : Prop :=
  (∀ (w n : Nat) (v : BitVec w), fit w n = some v ↔ v.toNat = n) ∧
  (∀ (w n : Nat), (fit w n).isSome = true ↔ n < 2 ^ w) ∧
  (∀ (w : Nat) env (a : NumArg) (v : BitVec w), a.fit w env = some v ↔ a.value env = some v.toNat) ∧
  (∀ env n k, (NumArg.lit n).value env = some n ∧ (NumArg.host k).value env = env.lookup k) ∧
  (∀ values d, (DataArg.hex values).bytes = some d ↔ d.map BitVec.toNat = values ∧ bufferFits d = true) ∧
  (∀ chars d, (DataArg.ascii chars).bytes = some d ↔
    d.map BitVec.toNat = chars.map Char.toNat ∧ (∀ b ∈ d, b.toNat < 128) ∧ bufferFits d = true) ∧
  (∀ env index sel is, (Asm.crc16Entry index sel).assemble env = some is ↔ ∃ (i : Byte) (s : Word),
    index.value env = some i.toNat ∧ sel.value env = some s.toNat ∧ is = [.crc16Entry i s]) ∧
  (∀ env sel byte acc is, (Asm.crc16Byte sel byte acc).assemble env = some is ↔ ∃ (s : Word) (b : Byte) (a : Half),
    sel.value env = some s.toNat ∧ byte.value env = some b.toNat ∧ acc.value env = some a.toNat ∧
    is = [.crc16Byte s b a]) ∧
  (∀ env sel data acc is, (Asm.crc16Buf sel data acc).assemble env = some is ↔ ∃ (s : Word) (d : List Byte) (a : Half),
    sel.value env = some s.toNat ∧ data.bytes = some d ∧ acc.value env = some a.toNat ∧ is = [.crc16Buf s d a]) ∧
  (∀ env sel data is, (Asm.crc16Calc sel data).assemble env = some is ↔ ∃ (s : Word) (d : List Byte),
    sel.value env = some s.toNat ∧ data.bytes = some d ∧ is = [.crc16Calc s d]) ∧
  (∀ env poly byte acc is, (Asm.crc8Byte poly byte acc).assemble env = some is ↔ ∃ p b a : Byte,
    poly.value env = some p.toNat ∧ byte.value env = some b.toNat ∧ acc.value env = some a.toNat ∧
    is = [.crc8Byte p b a]) ∧
  (∀ env poly init xorOut data is, (Asm.crc8Calc poly init xorOut data).assemble env = some is ↔
    ∃ (p i x : Byte) (d : List Byte), poly.value env = some p.toNat ∧ init.value env = some i.toNat ∧
      xorOut.value env = some x.toNat ∧ data.bytes = some d ∧ is = [.crc8Calc p i x d]) ∧
  (∀ env value is, (Asm.popcnt32 value).assemble env = some is ↔ ∃ v : Word,
    value.value env = some v.toNat ∧ is = [.popcnt32 v]) ∧
  (∀ env value is, (Asm.popcnt16 value).assemble env = some is ↔ ∃ v : Word,
    value.value env = some v.toNat ∧ is = [.popcnt16 v]) ∧
  (∀ env value is, (Asm.rev8 value).assemble env = some is ↔ ∃ v : Byte,
    value.value env = some v.toNat ∧ is = [.rev8 v]) ∧
  (∀ env poly data acc is, (Asm.cont poly data acc).assemble env = some is ↔ ∃ (p : Byte) (d : List Byte) (a : Byte),
    poly.value env = some p.toNat ∧ data.bytes = some d ∧ acc.value env = some a.toNat ∧ is = contCommands p d a)

/-- R71: the named constants stand for the two selectors, and each pseudo-instruction for its expansion. `crc8.cont` is one CRC8.BYTE a
byte of its brace list, in order, each with the previous result as its accumulator; its value is the last result, and where there
is no byte the accumulator it was given. The numbers of the two selectors: `NamedSelectorsHaveTheirValues`. A quoted string in
`crc8.cont`: `AssemblerNeverTruncates`. -/
def Obligations.PseudoInstructionsExpand : Prop :=
  (∀ env, NumArg.crc16Modbus.value env = some Config.modbusSelector.toNat ∧
    NumArg.crc16Dnp.value env = some Config.dnpSelector.toNat) ∧
  (∀ env data, (Asm.modbus data).assemble env = (Asm.crc16Calc .crc16Modbus data).assemble env) ∧
  (∀ env data, (Asm.dnp data).assemble env = (Asm.crc16Calc .crc16Dnp data).assemble env) ∧
  (∀ env data, (Asm.smbus data).assemble env = (Asm.crc8Calc (.lit 0x07) (.lit 0x00) (.lit 0x00) data).assemble env) ∧
  (∀ env poly acc (p a : Byte) values, poly.value env = some p.toNat → acc.value env = some a.toNat →
    (Asm.cont poly (.hex values) acc).assemble env = (DataArg.hex values).bytes.map (contCommands p · a)) ∧
  (∀ env poly acc (p a : Byte) values d, poly.value env = some p.toNat → acc.value env = some a.toNat →
    (DataArg.hex values).bytes = some d →
    (Asm.cont poly (.hex values) acc).hostValue env = some (fold8 p d a).toNat) ∧
  (∀ poly bs acc i, (contCommands poly bs acc)[i]? = bs[i]?.map fun b => Instr.crc8Byte poly b (fold8 poly (bs.take i) acc)) ∧
  (∀ poly b bs acc, contCommands poly (b :: bs) acc =
    .crc8Byte poly b acc :: contCommands poly bs (continueByte8 poly b acc)) ∧
  (∀ poly acc, contCommands poly [] acc = []) ∧
  (∀ env (poly acc : Byte), (Asm.cont (.lit poly.toNat) (.hex []) (.lit acc.toNat)).hostValue env = some acc.toNat) ∧
  (∀ poly bs acc, bs ≠ [] →
    (contCommands poly bs acc).getLast?.map resultOf = some (.byte (fold8 poly bs acc)))

/-- The numbers the spec decides for the named selectors in R91 (decisions D2 and D3), what each packs, which selectors are DNP3
with that number, and the check values R91 gives as evidence. The numbers are from general knowledge and not from the source: the model presumes them with the spec (log 13). -/
def Obligations.NamedSelectorsHaveTheirValues : Prop :=
  (∀ env, NumArg.crc16Modbus.value env = some 0xFFFFA001 ∧ NumArg.crc16Dnp.value env = some 0x0000A6BC) ∧
  Config.modbusSelector = selectorOf 0xFFFF#16 0xA001#16 ∧ Config.dnpSelector = selectorOf 0x0000#16 0xA6BC#16 ∧
  (∀ sel, isDNP sel = true ↔ sel = 0x0000A6BC#32) ∧
  (∀ initial, initial ≠ 0x0000#16 → isDNP (selectorOf initial 0xA6BC#16) = false) ∧
  calculate16 Config.modbusSelector
    [0x31#8, 0x32#8, 0x33#8, 0x34#8, 0x35#8, 0x36#8, 0x37#8, 0x38#8, 0x39#8] = 0x4B37#16 ∧
  calculate16 Config.dnpSelector
    [0x31#8, 0x32#8, 0x33#8, 0x34#8, 0x35#8, 0x36#8, 0x37#8, 0x38#8, 0x39#8] = 0x82EA#16
end

