-- ==== Sys2Proof/Laws/Asm.lean ====
section
/-! SUPPORT. Lists of results in the assembler, and what a line's last command is. -/

namespace Sys2Proof.Machine

/-- All of a list's entries are there exactly when the list is one of entries that are there. -/
theorem allSome_eq_some_iff {α : Type} (l : List (Option α)) (d : List α) : allSome l = some d ↔ l = d.map some := by
  induction l generalizing d with
  | nil => cases d <;> simp [allSome]
  | cons x xs ih =>
    cases d with
    | nil => cases x <;> simp [allSome]
    | cons e d => simp [allSome, Option.bind_eq_some_iff, ih]

/-- `crc8.cont` over no byte is no command; over bytes its last command has the result that is left after all of them (R71). -/
theorem contCommands_getLast? (poly : Byte) (bs : List Byte) (acc : Byte) :
    (bs = [] ∧ (contCommands poly bs acc).getLast? = none) ∨
    ∃ i, (contCommands poly bs acc).getLast? = some i ∧ resultOf i = .byte (fold8 poly bs acc) := by
  induction bs generalizing acc with
  | nil => exact .inl ⟨rfl, rfl⟩
  | cons b bs ih =>
    rcases ih (continueByte8 poly b acc) with ⟨rfl, -⟩ | ⟨i, h, hi⟩
    · exact .inr ⟨_, rfl, rfl⟩
    · exact .inr ⟨i, by simp [contCommands, List.getLast?_cons, h], by rw [hi]; rfl⟩

end Sys2Proof.Machine
end

