-- ==== Sys2Proof/Laws/State.lean ====
section
/-! SUPPORT. One lemma a field and update of the state, each true by unfolding, so that no later proof unfolds a record update. -/

namespace Sys2Proof.Machine

variable (s : State) (p : Nat) (x : Port) (bytes : List Byte) (r : Response) (v : Result) (sel : Word)

@[simp] theorem State.setPort_ports : (s.setPort p x).ports = putPort p x s.ports := rfl
@[simp] theorem State.setPort_serving : (s.setPort p x).serving = s.serving := rfl
@[simp] theorem State.setPort_picks : (s.setPort p x).picks = s.picks := rfl
@[simp] theorem State.setPort_strategy : (s.setPort p x).strategy = s.strategy := rfl
@[simp] theorem State.setPort_cache : (s.setPort p x).cache = s.cache := rfl

@[simp] theorem State.beginFrame_ports :
    (s.beginFrame p bytes).ports = putPort p { s.port p with rx := bytes } s.ports := rfl
@[simp] theorem State.beginFrame_serving : (s.beginFrame p bytes).serving = p := rfl
@[simp] theorem State.beginFrame_picks : (s.beginFrame p bytes).picks = s.picks + 1 := rfl
@[simp] theorem State.beginFrame_strategy : (s.beginFrame p bytes).strategy = s.strategy := rfl
@[simp] theorem State.beginFrame_cache : (s.beginFrame p bytes).cache = s.cache := rfl

@[simp] theorem State.respond_ports : (s.respond r).ports =
    putPort s.serving { s.port s.serving with tx := (s.port s.serving).tx ++ [r] } s.ports := rfl
@[simp] theorem State.respond_serving : (s.respond r).serving = s.serving := rfl
@[simp] theorem State.respond_picks : (s.respond r).picks = s.picks := rfl
@[simp] theorem State.respond_strategy : (s.respond r).strategy = s.strategy := rfl
@[simp] theorem State.respond_cache : (s.respond r).cache = s.cache := rfl

theorem State.deliver_eq : s.deliver v = s.respond (.ok v) := rfl
theorem State.illegalCommand_eq : s.illegalCommand = s.respond .illegal := rfl

@[simp] theorem State.withTable_ports : (s.withTable sel).ports = s.ports := by
  unfold State.withTable; split <;> rfl
@[simp] theorem State.withTable_serving : (s.withTable sel).serving = s.serving := by
  unfold State.withTable; split <;> rfl
@[simp] theorem State.withTable_picks : (s.withTable sel).picks = s.picks := by
  unfold State.withTable; split <;> rfl
@[simp] theorem State.withTable_strategy : (s.withTable sel).strategy = s.strategy := by
  unfold State.withTable; split <;> rfl
@[simp] theorem State.withTable_port (q : Nat) : (s.withTable sel).port q = s.port q := by
  simp [State.port]

theorem State.withTable_cache_onTheFly (h : s.strategy = .onTheFly) : (s.withTable sel).cache = s.cache := by
  simp [State.withTable, h]
theorem State.withTable_cache_cached (h : s.strategy = .cached) :
    (s.withTable sel).cache = completeTable (polyOf sel) s.cache := by
  simp [State.withTable, h]

@[simp] theorem State.reset_port (q : Nat) : State.reset.port q = .idle := rfl

end Sys2Proof.Machine
end

