-- ==== Sys2Proof/Laws/Cache.lean ====
section
/-! SUPPORT. The table cache: what is stored after a table is completed, that completing keeps the form of a cache, and that the
entry a command reads is R80's value. -/

namespace Sys2Proof.Machine

@[simp] theorem fullTable_length (p : Half) : (fullTable p).length = 256 := by simp [fullTable]

theorem fullTable_getElem? (p : Half) (i : Nat) (h : i < 256) : (fullTable p)[i]? = some (polyEntry p (BitVec.ofNat 8 i)) := by
  simp [fullTable, h]

theorem fullTable_byte (p : Half) (index : Byte) : (fullTable p)[index.toNat]? = some (polyEntry p index) := by
  rw [fullTable_getElem? p _ index.isLt]; simp

/-- A table whose entries are R80's, as far as it is built. -/
def CachedTable.ok (t : CachedTable) : Prop := t.entries = (fullTable t.poly).take t.entries.length

theorem cacheWf_iff (c : List CachedTable) : cacheWf c = true ↔
    (c.map fun t => t.poly.toNat).Pairwise (· < ·) ∧ ∀ t ∈ c, t.ok := by
  simp [cacheWf, List.all_eq_true, CachedTable.ok]

@[simp] theorem cacheWf_nil : cacheWf [] = true := rfl

theorem cacheWf_cons (t : CachedTable) (c : List CachedTable) : cacheWf (t :: c) = true ↔
    (∀ u ∈ c, t.poly.toNat < u.poly.toNat) ∧ t.ok ∧ cacheWf c = true := by
  simp only [cacheWf_iff, List.map_cons, List.pairwise_cons, List.mem_map, List.mem_cons]
  constructor
  · rintro ⟨⟨h1, h2⟩, h3⟩
    exact ⟨fun u hu => h1 _ ⟨u, hu, rfl⟩, h3 t (.inl rfl), h2, fun u hu => h3 u (.inr hu)⟩
  · rintro ⟨h1, h2, h3, h4⟩
    refine ⟨⟨?_, h3⟩, ?_⟩
    · rintro _ ⟨u, hu, rfl⟩; exact h1 u hu
    · rintro u (rfl | hu)
      · exact h2
      · exact h4 u hu

theorem CachedTable.ok_full (p : Half) : CachedTable.ok { poly := p, entries := fullTable p } := by
  simp only [CachedTable.ok]; rw [List.take_of_length_le (Nat.le_refl _)]

theorem CachedTable.entries_of_ok (t : CachedTable) (h : t.ok) (hl : t.entries.length = 256) :
    t.entries = fullTable t.poly := by
  rw [h, hl]; exact List.take_of_length_le (by simp)

@[simp] theorem CachedTable.complete_poly (t : CachedTable) : t.complete.poly = t.poly := by
  unfold CachedTable.complete; split <;> rfl

/-- Completing a table gives the whole table of its polynomial. -/
theorem CachedTable.complete_entries (t : CachedTable) (h : t.ok) : t.complete.entries = fullTable t.poly := by
  unfold CachedTable.complete
  split
  · next hl => exact t.entries_of_ok h hl
  · rfl

theorem CachedTable.complete_ok (t : CachedTable) (h : t.ok) : t.complete.ok := by
  simp only [CachedTable.ok, t.complete_entries h, t.complete_poly]
  rw [List.take_of_length_le (Nat.le_refl _)]

/-- After a table is completed it is stored whole. -/
theorem cachedEntries_completeTable_same (p : Half) (c : List CachedTable) (h : cacheWf c = true) :
    cachedEntries p (completeTable p c) = fullTable p := by
  induction c with
  | nil => simp [completeTable, cachedEntries]
  | cons t c ih =>
    obtain ⟨-, h2, h3⟩ := (cacheWf_cons t c).1 h
    simp only [completeTable]
    split
    · simp [cachedEntries]
    · split
      · next heq => simp [cachedEntries, heq, t.complete_entries h2]
      · next hne => simp only [cachedEntries, if_neg hne]; exact ih h3

/-- Completing a table leaves every other table as it is. -/
theorem cachedEntries_completeTable_other (p q : Half) (c : List CachedTable) (h : q ≠ p) :
    cachedEntries q (completeTable p c) = cachedEntries q c := by
  induction c with
  | nil => simp [completeTable, cachedEntries, Ne.symm h]
  | cons t c ih =>
    simp only [completeTable]
    split
    · simp [cachedEntries, Ne.symm h]
    · split
      · next heq => simp [cachedEntries, heq, Ne.symm h]
      · simp only [cachedEntries, ih]

theorem mem_completeTable (p : Half) (c : List CachedTable) (u : CachedTable) (h : u ∈ completeTable p c) :
    u.poly = p ∨ u ∈ c := by
  induction c with
  | nil => simp [completeTable] at h; simp [h]
  | cons t c ih =>
    simp only [completeTable] at h
    split at h
    · rcases List.mem_cons.1 h with rfl | h
      · exact .inl rfl
      · exact .inr h
    · split at h
      · next heq =>
        rcases List.mem_cons.1 h with rfl | h
        · exact .inl (by simp [heq])
        · exact .inr (by simp [h])
      · rcases List.mem_cons.1 h with rfl | h
        · exact .inr (by simp)
        · exact (ih h).imp_right fun h => by simp [h]

/-- Completing a table keeps the form of a cache. -/
theorem cacheWf_completeTable (p : Half) (c : List CachedTable) (h : cacheWf c = true) :
    cacheWf (completeTable p c) = true := by
  induction c with
  | nil => exact (cacheWf_cons _ _).2 ⟨by simp, CachedTable.ok_full p, rfl⟩
  | cons t c ih =>
    obtain ⟨h1, h2, h3⟩ := (cacheWf_cons t c).1 h
    simp only [completeTable]
    split
    · next hlt =>
      refine (cacheWf_cons _ _).2 ⟨fun u hu => ?_, CachedTable.ok_full p, h⟩
      rcases List.mem_cons.1 hu with rfl | hu
      · exact hlt
      · exact hlt.trans (h1 u hu)
    · next hnlt =>
      split
      · exact (cacheWf_cons _ _).2 ⟨by simpa using h1, t.complete_ok h2, h3⟩
      · next hne =>
        refine (cacheWf_cons _ _).2 ⟨fun u hu => ?_, h2, ih h3⟩
        rcases mem_completeTable p c u hu with rfl | hu
        · have : t.poly.toNat ≠ u.poly.toNat := fun h => hne (BitVec.eq_of_toNat_eq h)
          show t.poly.toNat < u.poly.toNat
          omega
        · exact h1 u hu

/-- What is stored of a table is a prefix of it. -/
theorem cachedEntries_prefix (p : Half) (c : List CachedTable) (h : cacheWf c = true) :
    cachedEntries p c = (fullTable p).take (cachedEntries p c).length := by
  induction c with
  | nil => rfl
  | cons t c ih =>
    obtain ⟨-, h2, h3⟩ := (cacheWf_cons t c).1 h
    simp only [cachedEntries]
    split
    · next heq => subst heq; exact h2
    · exact ih h3

/-- A stored entry is R80's value. -/
theorem cachedEntries_getElem? (p : Half) (c : List CachedTable) (h : cacheWf c = true) (i : Nat) (v : Half)
    (hv : (cachedEntries p c)[i]? = some v) : i < 256 ∧ v = polyEntry p (BitVec.ofNat 8 i) := by
  have hi : i < 256 := by
    have h1 := (List.getElem?_eq_some_iff.1 hv).1
    have h2 := congrArg List.length (cachedEntries_prefix p c h)
    rw [List.length_take, fullTable_length] at h2
    omega
  refine ⟨hi, ?_⟩
  rw [cachedEntries_prefix p c h, List.getElem?_take] at hv
  split at hv
  · rw [fullTable_getElem? p i hi] at hv; exact (Option.some.inj hv).symm
  · cases hv

/-! ## The same facts of a state -/

/-- The entry a command reads is R80's value, whichever strategy the deployment has (R94). -/
theorem State.entry_eq (s : State) (sel : Word) (h : cacheWf s.cache = true) (index : Byte) :
    s.entry sel index = tableEntry index sel := by
  unfold State.entry
  split
  · rfl
  · cases hv : (cachedEntries (polyOf sel) s.cache)[index.toNat]? with
    | none => rfl
    | some v =>
      rw [Option.getD_some, (cachedEntries_getElem? _ _ h _ v hv).2]
      simp [tableEntry]

theorem State.entry_eq_fun (s : State) (sel : Word) (h : cacheWf s.cache = true) :
    s.entry sel = (tableEntry · sel) := funext (s.entry_eq sel h)

theorem State.cacheWf_withTable (s : State) (sel : Word) (h : cacheWf s.cache = true) :
    cacheWf (s.withTable sel).cache = true := by
  cases hs : s.strategy with
  | onTheFly => rwa [s.withTable_cache_onTheFly sel hs]
  | cached => rw [s.withTable_cache_cached sel hs]; exact cacheWf_completeTable _ _ h

end Sys2Proof.Machine
end

