-- ==== Sys2Proof/Laws/Ports.lean ====
section
/-! SUPPORT. The list of ports: reading after writing, and that every write keeps the canonical form. -/

namespace Sys2Proof.Machine

@[simp] theorem Port.isIdle_iff (x : Port) : x.isIdle = true ↔ x = .idle := by
  cases x; simp [Port.isIdle, Port.idle]

theorem Port.isIdle_false_iff (x : Port) : x.isIdle = false ↔ x ≠ .idle := by
  rw [← Bool.not_eq_true, Port.isIdle_iff]

/-- Ports listed with numbers rising. -/
theorem portsWf_iff (l : List (Nat × Port)) : portsWf l = true ↔
    (l.map Prod.fst).Pairwise (· < ·) ∧ ∀ e ∈ l, e.1 < Config.nPorts ∧ e.2 ≠ .idle := by
  simp [portsWf, List.all_eq_true, Port.isIdle_false_iff]

@[simp] theorem portsWf_nil : portsWf [] = true := rfl

theorem portsWf_cons (q : Nat) (y : Port) (t : List (Nat × Port)) : portsWf ((q, y) :: t) = true ↔
    (∀ e ∈ t, q < e.1) ∧ q < Config.nPorts ∧ y ≠ .idle ∧ portsWf t = true := by
  simp only [portsWf_iff, List.map_cons, List.pairwise_cons, List.mem_map, List.mem_cons]
  constructor
  · rintro ⟨⟨h1, h2⟩, h3⟩
    exact ⟨fun e he => h1 _ ⟨e, he, rfl⟩, (h3 _ (.inl rfl)).1, (h3 _ (.inl rfl)).2, h2, fun e he => h3 e (.inr he)⟩
  · rintro ⟨h1, h2, h3, h4, h5⟩
    refine ⟨⟨?_, h4⟩, ?_⟩
    · rintro _ ⟨e, he, rfl⟩; exact h1 e he
    · rintro e (rfl | he)
      · exact ⟨h2, h3⟩
      · exact h5 e he

/-- A port below every listed one is idle. -/
theorem portAt_of_forall_lt (p : Nat) (l : List (Nat × Port)) (h : ∀ e ∈ l, p < e.1) : portAt p l = .idle := by
  induction l with
  | nil => rfl
  | cons e t ih =>
    obtain ⟨q, y⟩ := e
    have : p < q := h (q, y) (by simp)
    simp only [portAt, if_neg (show ¬ q = p by omega)]
    exact ih fun e he => h e (by simp [he])

theorem portAt_consPort_same (p : Nat) (x : Port) (t : List (Nat × Port)) (h : x = .idle → portAt p t = .idle) :
    portAt p (consPort p x t) = x := by
  unfold consPort
  split
  · next hi => rw [Port.isIdle_iff] at hi; rw [h hi, hi]
  · simp [portAt]

theorem portAt_consPort_other (p q : Nat) (x : Port) (t : List (Nat × Port)) (h : p ≠ q) :
    portAt q (consPort p x t) = portAt q t := by
  unfold consPort; split <;> simp [portAt, h]

/-- A written port reads as written; where the value is not idle, in any list. -/
theorem portAt_putPort_same (p : Nat) (x : Port) (l : List (Nat × Port)) (h : x ≠ .idle ∨ portsWf l = true) :
    portAt p (putPort p x l) = x := by
  induction l with
  | nil => exact portAt_consPort_same p x [] fun _ => rfl
  | cons e t ih =>
    obtain ⟨q, y⟩ := e
    have ht : x ≠ .idle ∨ portsWf t = true := h.imp_right fun h => ((portsWf_cons q y t).1 h).2.2.2
    have below : x = .idle → ∀ e ∈ t, q < e.1 := fun hx =>
      ((portsWf_cons q y t).1 (h.resolve_left fun hn => hn hx)).1
    simp only [putPort]
    split
    · next hlt =>
      refine portAt_consPort_same p x _ fun hx => ?_
      refine portAt_of_forall_lt p _ fun e he => ?_
      rcases List.mem_cons.1 he with rfl | he
      · exact hlt
      · exact hlt.trans (below hx e he)
    · split
      · next heq =>
        subst heq
        exact portAt_consPort_same _ x _ fun hx => portAt_of_forall_lt _ _ (below hx)
      · next hne => simp only [portAt, if_neg (show ¬ q = p by omega)]; exact ih ht

/-- Writing a port leaves every other port alone. -/
theorem portAt_putPort_other (p q : Nat) (x : Port) (l : List (Nat × Port)) (h : p ≠ q) :
    portAt q (putPort p x l) = portAt q l := by
  induction l with
  | nil => exact portAt_consPort_other p q x [] h
  | cons e t ih =>
    obtain ⟨r, y⟩ := e
    simp only [putPort]
    split
    · exact portAt_consPort_other p q x _ h
    · split
      · next heq => subst heq; rw [portAt_consPort_other _ _ _ _ h]; simp [portAt, h]
      · simp only [portAt, ih]

theorem mem_putPort (p : Nat) (x : Port) (l : List (Nat × Port)) (e : Nat × Port) (h : e ∈ putPort p x l) :
    (e = (p, x) ∧ x ≠ .idle) ∨ e ∈ l := by
  induction l with
  | nil =>
    simp only [putPort, consPort] at h
    split at h
    · simp at h
    · next hi => rw [Port.isIdle_iff] at hi; simp at h; exact .inl ⟨h, hi⟩
  | cons f t ih =>
    obtain ⟨r, y⟩ := f
    simp only [putPort, consPort] at h
    split at h
    · split at h
      · exact .inr h
      · next hi =>
        rw [Port.isIdle_iff] at hi
        rcases List.mem_cons.1 h with rfl | h
        · exact .inl ⟨rfl, hi⟩
        · exact .inr h
    · split at h
      · split at h
        · exact .inr (by simp [h])
        · next hi =>
          rw [Port.isIdle_iff] at hi
          rcases List.mem_cons.1 h with rfl | h
          · exact .inl ⟨rfl, hi⟩
          · exact .inr (by simp [h])
      · rcases List.mem_cons.1 h with rfl | h
        · exact .inr (by simp)
        · exact (ih h).imp_right fun h => by simp [h]

theorem portsWf_consPort (p : Nat) (x : Port) (t : List (Nat × Port)) (ht : portsWf t = true)
    (hp : p < Config.nPorts) (hlt : ∀ e ∈ t, p < e.1) : portsWf (consPort p x t) = true := by
  unfold consPort
  split
  · exact ht
  · next hi => rw [Port.isIdle_iff] at hi; exact (portsWf_cons p x t).2 ⟨hlt, hp, hi, ht⟩

/-- Writing a port that exists keeps the canonical form. -/
theorem portsWf_putPort (p : Nat) (x : Port) (l : List (Nat × Port)) (hl : portsWf l = true)
    (hp : p < Config.nPorts) : portsWf (putPort p x l) = true := by
  induction l with
  | nil => exact portsWf_consPort p x [] rfl hp (by simp)
  | cons e t ih =>
    obtain ⟨q, y⟩ := e
    obtain ⟨h1, h2, h3, h4⟩ := (portsWf_cons q y t).1 hl
    simp only [putPort]
    split
    · next hlt =>
      refine portsWf_consPort p x _ hl hp fun e he => ?_
      rcases List.mem_cons.1 he with rfl | he
      · exact hlt
      · exact hlt.trans (h1 e he)
    · split
      · next heq => subst heq; exact portsWf_consPort _ x t h4 hp h1
      · next hnlt hne =>
        refine (portsWf_cons q y _).2 ⟨fun e he => ?_, h2, h3, ih h4⟩
        rcases mem_putPort p x t e he with ⟨rfl, -⟩ | he
        · exact Nat.lt_of_le_of_ne (Nat.not_lt.1 hnlt) fun h => hne h.symm
        · exact h1 e he

/-- In a canonical list, a port is listed exactly as it reads, unless it is idle. -/
theorem mem_iff_portAt (l : List (Nat × Port)) (hl : portsWf l = true) (p : Nat) (x : Port) :
    (p, x) ∈ l ↔ portAt p l = x ∧ x ≠ .idle := by
  induction l with
  | nil => simp [portAt, eq_comm]
  | cons e t ih =>
    obtain ⟨q, y⟩ := e
    obtain ⟨h1, h2, h3, h4⟩ := (portsWf_cons q y t).1 hl
    rw [List.mem_cons, ih h4]
    by_cases hq : q = p
    · subst hq
      have hnot : portAt q t = .idle := portAt_of_forall_lt q t h1
      simp only [portAt, if_true, Prod.mk.injEq, true_and, hnot]
      constructor
      · rintro (rfl | ⟨h, h'⟩)
        · exact ⟨rfl, h3⟩
        · exact absurd h.symm h'
      · rintro ⟨rfl, -⟩; exact .inl rfl
    · simp [portAt, hq, Ne.symm hq]

/-! ## The same facts of a state -/

theorem State.port_setPort_same (s : State) (p : Nat) (x : Port) (h : x ≠ .idle ∨ portsWf s.ports = true) :
    (s.setPort p x).port p = x := portAt_putPort_same p x s.ports h

theorem State.port_setPort_other (s : State) (p q : Nat) (x : Port) (h : p ≠ q) :
    (s.setPort p x).port q = s.port q := portAt_putPort_other p q x s.ports h

end Sys2Proof.Machine
end

