-- ==== Sys2Proof/Laws/Exec.lean ====
section
/-! SUPPORT. What the shared operations and every command do, said once: a response changes the port being served and nothing else,
and each command is one response over a table cache that stays as R28 says. -/

namespace Sys2Proof.Machine

/-- A port that was sent something is not idle. -/
theorem Port.sent_ne_idle (x : Port) (l : List Response) (r : Response) : { x with tx := l ++ [r] } ≠ Port.idle := by
  simp [Port.idle]

/-- A response goes to the port being served; nothing else changes. -/
theorem State.respond_delivered (s : State) (r : Response) : Delivered s (s.respond r) r where
  sent := State.port_setPort_same _ _ _ (.inl (Port.sent_ne_idle _ _ _))
  others _ h := State.port_setPort_other _ _ _ _ (Ne.symm h)
  serving := rfl
  picks := rfl
  strategy := rfl

theorem State.deliver_delivered (s : State) (v : Result) : Delivered s (s.deliver v) (.ok v) :=
  s.respond_delivered (.ok v)

/-- A result delivered after the table of a selector is made ready. -/
theorem State.withTable_deliver_delivered (s : State) (sel : Word) (v : Result) :
    Delivered s ((s.withTable sel).deliver v) (.ok v) := by
  have h := (s.withTable sel).deliver_delivered v
  exact ⟨by simpa using h.sent, by simpa using h.others, by simpa using h.serving, by simpa using h.picks,
    by simpa using h.strategy⟩

/-- The table cache after the table of a selector is made ready. -/
theorem State.withTable_tables (s : State) (sel : Word) (h : cacheWf s.cache = true) :
    TablesAfter s (s.withTable sel) sel where
  onTheFly hs := s.withTable_cache_onTheFly sel hs
  completed hs := by rw [s.withTable_cache_cached sel hs]; exact cachedEntries_completeTable_same _ _ h
  others q hq := by
    cases hs : s.strategy with
    | onTheFly => rw [s.withTable_cache_onTheFly sel hs]
    | cached => rw [s.withTable_cache_cached sel hs]; exact cachedEntries_completeTable_other _ _ _ hq

/-- The invariant after a response on a port that exists. -/
theorem State.respond_inv (s : State) (r : Response) (h : Inv s) : Inv (s.respond r) where
  ports := portsWf_putPort _ _ _ h.ports h.serving
  serving := h.serving
  cache := h.cache

/-- Every command is one response over a cache: that of the state, or that with one table completed. -/
theorem exec_shape (i : Instr) (s : State) : ∃ c v, exec i s = .next (State.deliver { s with cache := c } v) ∧
    (c = s.cache ∨ ∃ p, c = completeTable p s.cache) ∧ (cacheWf s.cache = true → v = resultOf i) := by
  have table : ∀ (sel : Word) (f : (Byte → Half) → Half), ∃ c v,
      (Host.Outcome.next ((s.withTable sel).deliver (.half (f ((s.withTable sel).entry sel)))) : Outcome) =
        .next (State.deliver { s with cache := c } v) ∧
      (c = s.cache ∨ ∃ p, c = completeTable p s.cache) ∧
      (cacheWf s.cache = true → v = .half (f (tableEntry · sel))) := by
    intro sel f
    refine ⟨(s.withTable sel).cache, .half (f ((s.withTable sel).entry sel)), ?_, ?_, fun h => ?_⟩
    · congr 2; unfold State.withTable; split <;> rfl
    · cases hs : s.strategy with
      | onTheFly => exact .inl (s.withTable_cache_onTheFly sel hs)
      | cached => exact .inr ⟨_, s.withTable_cache_cached sel hs⟩
    · rw [State.entry_eq_fun _ _ (s.cacheWf_withTable sel h)]
  cases i with
  | crc16Entry index sel => exact table sel fun e => e index
  | crc16Byte sel byte acc => exact table sel fun e => byteUpdate e byte acc
  | crc16Buf sel data acc => exact table sel fun e => bufferUpdate e sel data acc
  | crc16Calc sel data => exact table sel fun e => bufferUpdate e sel data (initialValueOf sel)
  | crc8Byte poly byte acc => exact ⟨s.cache, _, rfl, .inl rfl, fun _ => rfl⟩
  | crc8Calc poly init xorOut data => exact ⟨s.cache, _, rfl, .inl rfl, fun _ => rfl⟩
  | popcnt32 value => exact ⟨s.cache, _, rfl, .inl rfl, fun _ => rfl⟩
  | popcnt16 value => exact ⟨s.cache, _, rfl, .inl rfl, fun _ => rfl⟩
  | rev8 value => exact ⟨s.cache, _, rfl, .inl rfl, fun _ => rfl⟩

end Sys2Proof.Machine
end

