-- ==== Sys2Proof/Laws/Frames.lean ====
section
/-! SUPPORT. Fields and frames: a field's bytes read back, reading a field or a frame is unaffected by bytes that follow it, and
each frame takes at least one byte. -/

namespace Sys2Proof

/-! ## Field values -/

theorem getLsbD_ofLE16 (b0 b1 : Byte) (i : Nat) :
    (ofLE16 b0 b1).getLsbD i = if i < 8 then b0.getLsbD i else b1.getLsbD (i - 8) := by
  unfold ofLE16; exact BitVec.getLsbD_append ..

theorem getLsbD_ofLE32 (b0 b1 b2 b3 : Byte) (i : Nat) :
    (ofLE32 b0 b1 b2 b3).getLsbD i = if i < 8 then b0.getLsbD i else if i < 16 then b1.getLsbD (i - 8)
      else if i < 24 then b2.getLsbD (i - 16) else b3.getLsbD (i - 24) := by
  unfold ofLE32
  simp only [BitVec.getLsbD_append, Nat.sub_sub]
  by_cases h1 : i < 8
  · simp [h1]
  · by_cases h2 : i < 16
    · simp [h1, h2, show i - 8 < 8 by omega]
    · by_cases h3 : i < 24
      · simp [h1, h2, h3, show ¬ i - 8 < 8 by omega, show i - (8 + 8) < 8 by omega]
      · simp [h1, h2, h3, show ¬ i - 8 < 8 by omega, show ¬ i - (8 + 8) < 8 by omega]

theorem ofLE16_bytes (v : Half) : ofLE16 (v.extractLsb' 0 8) (v.extractLsb' 8 8) = v := by
  refine BitVec.eq_of_getLsbD_eq fun i hi => ?_
  simp only [getLsbD_ofLE16, BitVec.getLsbD_extractLsb']
  split
  · simp [*]
  · rw [show 8 + (i - 8) = i by omega]; simp; omega

theorem ofLE32_bytes (v : Word) :
    ofLE32 (v.extractLsb' 0 8) (v.extractLsb' 8 8) (v.extractLsb' 16 8) (v.extractLsb' 24 8) = v := by
  refine BitVec.eq_of_getLsbD_eq fun i hi => ?_
  simp only [getLsbD_ofLE32, BitVec.getLsbD_extractLsb']
  split
  · simp [*]
  · split
    · rw [show 8 + (i - 8) = i by omega]; simp; omega
    · split
      · rw [show 16 + (i - 16) = i by omega]; simp; omega
      · rw [show 24 + (i - 24) = i by omega]; simp; omega

theorem bytesLE16_ofLE16 (b0 b1 : Byte) : bytesLE16 (ofLE16 b0 b1) = [b0, b1] := by
  simp only [bytesLE16, List.cons.injEq, and_true]
  refine ⟨?_, ?_⟩ <;> refine BitVec.eq_of_getLsbD_eq fun i hi => ?_ <;>
    simp only [getLsbD_ofLE16, BitVec.getLsbD_extractLsb', hi, decide_true, Bool.true_and]
  · rw [if_pos (by omega), Nat.zero_add]
  · rw [if_neg (by omega), show 8 + i - 8 = i by omega]

theorem bytesLE32_ofLE32 (b0 b1 b2 b3 : Byte) : bytesLE32 (ofLE32 b0 b1 b2 b3) = [b0, b1, b2, b3] := by
  simp only [bytesLE32, List.cons.injEq, and_true]
  refine ⟨?_, ?_, ?_, ?_⟩ <;> refine BitVec.eq_of_getLsbD_eq fun i hi => ?_ <;>
    simp only [getLsbD_ofLE32, BitVec.getLsbD_extractLsb', hi, decide_true, Bool.true_and]
  · rw [if_pos (by omega), Nat.zero_add]
  · rw [if_neg (by omega), if_pos (by omega), show 8 + i - 8 = i by omega]
  · rw [if_neg (by omega), if_neg (by omega), if_pos (by omega), show 16 + i - 16 = i by omega]
  · rw [if_neg (by omega), if_neg (by omega), if_neg (by omega), show 24 + i - 24 = i by omega]

/-! ## Reading fields -/

@[simp] theorem field8_cons (b : Byte) (bs : List Byte) : field8 (b :: bs) = some (b, bs) := rfl

@[simp] theorem field16_bytes (v : Half) (bs : List Byte) : field16 (bytesLE16 v ++ bs) = some (v, bs) := by
  simp [field16, bytesLE16, ofLE16_bytes]

@[simp] theorem field32_bytes (v : Word) (bs : List Byte) : field32 (bytesLE32 v ++ bs) = some (v, bs) := by
  simp [field32, bytesLE32, ofLE32_bytes]

@[simp] theorem takeBytes_append (data bs : List Byte) : takeBytes data.length (data ++ bs) = some (data, bs) := by
  simp [takeBytes]

theorem bufferFits_iff (data : List Byte) : bufferFits data = true ↔ data.length < 2 ^ 32 := by
  rw [bufferFits, decide_eq_true_iff]; unfold Config.maxFrameLen; omega

theorem bytesOfBuffer_length (data : List Byte) : (bytesOfBuffer data).length = 4 + data.length := by
  simp [bytesOfBuffer, bytesLE32]; omega

theorem fieldBuffer_bytes (data bs : List Byte) (h : bufferFits data = true) :
    fieldBuffer (bytesOfBuffer data ++ bs) = some (data, bs) := by
  have h : data.length < 2 ^ 32 := (bufferFits_iff data).1 h
  simp only [fieldBuffer, bytesOfBuffer, List.append_assoc, field32_bytes, Option.bind_some, BitVec.toNat_ofNat,
    Nat.mod_eq_of_lt h, takeBytes_append]

/-! ## What a field that was read says about the bytes -/

theorem field8_some (bs r : List Byte) (b : Byte) (h : field8 bs = some (b, r)) : bs = b :: r := by
  cases bs with
  | nil => cases h
  | cons c cs => cases h; rfl

theorem field16_some (bs r : List Byte) (v : Half) (h : field16 bs = some (v, r)) : bs = bytesLE16 v ++ r := by
  match bs, h with
  | b0 :: b1 :: t, h => cases h; simp [bytesLE16_ofLE16]

theorem field32_some (bs r : List Byte) (v : Word) (h : field32 bs = some (v, r)) : bs = bytesLE32 v ++ r := by
  match bs, h with
  | b0 :: b1 :: b2 :: b3 :: t, h => cases h; simp [bytesLE32_ofLE32]

theorem takeBytes_some (n : Nat) (bs data r : List Byte) (h : takeBytes n bs = some (data, r)) :
    bs = data ++ r ∧ data.length = n := by
  unfold takeBytes at h
  split at h
  · next hn => cases h; exact ⟨(List.take_append_drop n bs).symm, by simp [hn]⟩
  · cases h

theorem fieldBuffer_some (bs data r : List Byte) (h : fieldBuffer bs = some (data, r)) :
    bs = bytesOfBuffer data ++ r ∧ bufferFits data = true := by
  obtain ⟨⟨n, t⟩, hn, ht⟩ := Option.bind_eq_some_iff.1 h
  obtain ⟨rfl, hl⟩ := takeBytes_some _ _ _ _ ht
  rw [field32_some _ _ _ hn, bytesOfBuffer, hl, BitVec.ofNat_toNat, BitVec.setWidth_eq, List.append_assoc]
  exact ⟨rfl, (bufferFits_iff data).2 (by have := n.isLt; omega)⟩

/-! ## Bytes behind a field -/

theorem field8_append (bs r more : List Byte) (b : Byte) (h : field8 bs = some (b, r)) :
    field8 (bs ++ more) = some (b, r ++ more) := by rw [field8_some _ _ _ h]; rfl

theorem field16_append (bs r more : List Byte) (v : Half) (h : field16 bs = some (v, r)) :
    field16 (bs ++ more) = some (v, r ++ more) := by rw [field16_some _ _ _ h]; simp

theorem field32_append (bs r more : List Byte) (v : Word) (h : field32 bs = some (v, r)) :
    field32 (bs ++ more) = some (v, r ++ more) := by rw [field32_some _ _ _ h]; simp

theorem fieldBuffer_append (bs r more data : List Byte) (h : fieldBuffer bs = some (data, r)) :
    fieldBuffer (bs ++ more) = some (data, r ++ more) := by
  obtain ⟨rfl, hf⟩ := fieldBuffer_some _ _ _ h
  rw [List.append_assoc, fieldBuffer_bytes _ _ hf]

/-- Operands that have arrived are read the same with further bytes behind them. -/
theorem decodeOperands_append (o : Opcode) (bs r more : List Byte) (i : Instr) (h : decodeOperands o bs = some (i, r)) :
    decodeOperands o (bs ++ more) = some (i, r ++ more) := by
  cases o <;> simp only [decodeOperands, Option.bind_eq_some_iff, Prod.exists] at h ⊢
  case crc16Entry =>
    obtain ⟨_, _, h1, _, _, h2, h3⟩ := h; cases h3
    exact ⟨_, _, field8_append _ _ more _ h1, _, _, field32_append _ _ more _ h2, rfl⟩
  case crc16Byte =>
    obtain ⟨_, _, h1, _, _, h2, _, _, h3, h4⟩ := h; cases h4
    exact ⟨_, _, field32_append _ _ more _ h1, _, _, field8_append _ _ more _ h2, _, _, field16_append _ _ more _ h3, rfl⟩
  case crc16Buf =>
    obtain ⟨_, _, h1, _, _, h2, _, _, h3, h4⟩ := h; cases h4
    exact ⟨_, _, field32_append _ _ more _ h1, _, _, field16_append _ _ more _ h2, _, _,
      fieldBuffer_append _ _ more _ h3, rfl⟩
  case crc16Calc =>
    obtain ⟨_, _, h1, _, _, h2, h3⟩ := h; cases h3
    exact ⟨_, _, field32_append _ _ more _ h1, _, _, fieldBuffer_append _ _ more _ h2, rfl⟩
  case crc8Byte =>
    obtain ⟨_, _, h1, _, _, h2, _, _, h3, h4⟩ := h; cases h4
    exact ⟨_, _, field8_append _ _ more _ h1, _, _, field8_append _ _ more _ h2, _, _, field8_append _ _ more _ h3, rfl⟩
  case crc8Calc =>
    obtain ⟨_, _, h1, _, _, h2, _, _, h3, _, _, h4, h5⟩ := h; cases h5
    exact ⟨_, _, field8_append _ _ more _ h1, _, _, field8_append _ _ more _ h2, _, _, field8_append _ _ more _ h3, _, _,
      fieldBuffer_append _ _ more _ h4, rfl⟩
  case popcnt32 | popcnt16 =>
    obtain ⟨_, _, h1, h2⟩ := h; cases h2
    exact ⟨_, _, field32_append _ _ more _ h1, rfl⟩
  case rev8 =>
    obtain ⟨_, _, h1, h2⟩ := h; cases h2
    exact ⟨_, _, field8_append _ _ more _ h1, rfl⟩

/-! ## Frames -/

/-- When the bytes begin with a command, the opcode byte names its operation and the operands follow. -/
theorem decode_command_iff (bs rest : List Byte) (i : Instr) : decode bs = .command i rest ↔
    ∃ op t o, bs = op :: t ∧ opcodeOf op = some o ∧ decodeOperands o t = some (i, rest) := by
  cases bs with
  | nil => simp [decode]
  | cons op t =>
    simp only [decode]
    split
    · next h => simp [h]
    · next o h =>
      split
      · next h' => simp [h, h']
      · next j r h' => simp [h, h']

/-- When the bytes begin with an illegal command, the opcode byte names no operation and is the only byte consumed (R68). -/
theorem decode_illegalCommand_iff (bs rest : List Byte) (op : Byte) : decode bs = .illegalCommand op rest ↔
    bs = op :: rest ∧ opcodeOf op = none := by
  cases bs with
  | nil => simp [decode]
  | cons op' t =>
    simp only [decode]
    split
    · next h =>
      simp only [Decoded.illegalCommand.injEq, List.cons.injEq]
      constructor
      · rintro ⟨rfl, rfl⟩; exact ⟨⟨rfl, rfl⟩, h⟩
      · exact fun h => h.1
    · next o h =>
      split <;> simp <;> rintro rfl <;> simp [h]

/-- What is left after the operands is the end of the bytes they were read from. -/
theorem decodeOperands_suffix (o : Opcode) (bs r : List Byte) (i : Instr) (h : decodeOperands o bs = some (i, r)) :
    r <:+ bs := by
  have f8 : ∀ {b : Byte} {t u : List Byte}, field8 t = some (b, u) → u <:+ t :=
    fun h => ⟨[_], (field8_some _ _ _ h).symm⟩
  have f16 : ∀ {b : Half} {t u : List Byte}, field16 t = some (b, u) → u <:+ t := fun h => ⟨_, (field16_some _ _ _ h).symm⟩
  have f32 : ∀ {b : Word} {t u : List Byte}, field32 t = some (b, u) → u <:+ t := fun h => ⟨_, (field32_some _ _ _ h).symm⟩
  have fb : ∀ {b t u : List Byte}, fieldBuffer t = some (b, u) → u <:+ t := fun h => ⟨_, (fieldBuffer_some _ _ _ h).1.symm⟩
  cases o <;> simp only [decodeOperands, Option.bind_eq_some_iff, Prod.exists] at h
  case crc16Entry =>
    obtain ⟨_, _, h1, _, _, h2, h3⟩ := h; cases h3; exact (f32 h2).trans (f8 h1)
  case crc16Byte =>
    obtain ⟨_, _, h1, _, _, h2, _, _, h3, h4⟩ := h; cases h4; exact ((f16 h3).trans (f8 h2)).trans (f32 h1)
  case crc16Buf =>
    obtain ⟨_, _, h1, _, _, h2, _, _, h3, h4⟩ := h; cases h4; exact ((fb h3).trans (f16 h2)).trans (f32 h1)
  case crc16Calc =>
    obtain ⟨_, _, h1, _, _, h2, h3⟩ := h; cases h3; exact (fb h2).trans (f32 h1)
  case crc8Byte =>
    obtain ⟨_, _, h1, _, _, h2, _, _, h3, h4⟩ := h; cases h4; exact ((f8 h3).trans (f8 h2)).trans (f8 h1)
  case crc8Calc =>
    obtain ⟨_, _, h1, _, _, h2, _, _, h3, _, _, h4, h5⟩ := h; cases h5
    exact (((fb h4).trans (f8 h3)).trans (f8 h2)).trans (f8 h1)
  case popcnt32 | popcnt16 => obtain ⟨_, _, h1, h2⟩ := h; cases h2; exact f32 h1
  case rev8 => obtain ⟨_, _, h1, h2⟩ := h; cases h2; exact f8 h1

/-- A command consumes at least its opcode byte. -/
theorem decode_command_length (bs rest : List Byte) (i : Instr) (h : decode bs = .command i rest) :
    rest.length < bs.length := by
  obtain ⟨op, t, o, rfl, -, hd⟩ := (decode_command_iff _ _ _).1 h
  exact Nat.lt_succ_of_le (decodeOperands_suffix _ _ _ _ hd).length_le

theorem decode_illegalCommand_length (bs rest : List Byte) (op : Byte) (h : decode bs = .illegalCommand op rest) :
    rest.length < bs.length := by
  rw [((decode_illegalCommand_iff _ _ _).1 h).1]; exact Nat.lt_succ_self _

theorem decode_command_append (bs rest more : List Byte) (i : Instr) (h : decode bs = .command i rest) :
    decode (bs ++ more) = .command i (rest ++ more) := by
  obtain ⟨op, t, o, rfl, ho, hd⟩ := (decode_command_iff _ _ _).1 h
  exact (decode_command_iff _ _ _).2 ⟨op, t ++ more, o, rfl, ho, decodeOperands_append _ _ _ _ _ hd⟩

theorem decode_illegalCommand_append (bs rest more : List Byte) (op : Byte) (h : decode bs = .illegalCommand op rest) :
    decode (bs ++ more) = .illegalCommand op (rest ++ more) := by
  obtain ⟨rfl, ho⟩ := (decode_illegalCommand_iff _ _ _).1 h
  exact (decode_illegalCommand_iff _ _ _).2 ⟨rfl, ho⟩

end Sys2Proof
end

