-- ==== Sys2Proof/Laws/PerInstr.lean ====
section
/-! SUPPORT. Statements made instruction by instruction: the length of each command's frame (30_encoding.md rules R62 and R65). -/

namespace Sys2Proof.Laws.FrameLength

open Sys2Proof.Machine

/-- The frame of a command has the length R62 gives it. -/
def Statement (i : Instr) : Prop := (encode i).length = frameBytes i

theorem crc16Entry (index : Byte) (sel : Word) : Statement (.crc16Entry index sel) := rfl

theorem crc16Byte (sel : Word) (byte : Byte) (acc : Half) : Statement (.crc16Byte sel byte acc) := rfl

theorem crc16Buf (sel : Word) (data : List Byte) (acc : Half) : Statement (.crc16Buf sel data acc) := by
  simp [Statement, encode, frameBytes, bytesLE32, bytesLE16, bytesOfBuffer_length]; omega

theorem crc16Calc (sel : Word) (data : List Byte) : Statement (.crc16Calc sel data) := by
  simp [Statement, encode, frameBytes, bytesLE32, bytesOfBuffer_length]; omega

theorem crc8Byte (poly byte acc : Byte) : Statement (.crc8Byte poly byte acc) := rfl

theorem crc8Calc (poly init xorOut : Byte) (data : List Byte) : Statement (.crc8Calc poly init xorOut data) := by
  simp [Statement, encode, frameBytes, bytesOfBuffer_length]; omega

theorem popcnt32 (value : Word) : Statement (.popcnt32 value) := rfl

theorem popcnt16 (value : Word) : Statement (.popcnt16 value) := rfl

theorem rev8 (value : Byte) : Statement (.rev8 value) := rfl

end Sys2Proof.Laws.FrameLength
end

