-- ==== Sys2Proof/Laws/Run.lean ====
section
/-! SUPPORT. Runs of the machine, and what a host's actions do to the ports and the table cache. -/

namespace Sys2Proof.Machine

/-! ## Runs -/

theorem core_run_zero (s : State) : core.run 0 s = .next s := rfl

/-- A run takes its first step and goes on from there. -/
theorem core_run_succ (s t : State) (k : Nat) (h : step s = .next t) : core.run (k + 1) s = core.run k t := by
  have h : core.step s = .next t := h
  simp only [Host.Core.run]
  rw [h]

/-! ## Reset -/

/-- The ports after a reset: canonical, none added, and each with its received bytes dropped (R160, R161). -/
theorem resetPorts_spec (l : List (Nat × Port)) (h : portsWf l = true) : portsWf (resetPorts l) = true ∧
    (∀ e ∈ resetPorts l, ∃ x, (e.1, x) ∈ l) ∧ ∀ p, portAt p (resetPorts l) = { portAt p l with rx := [] } := by
  induction l with
  | nil => exact ⟨rfl, by simp [resetPorts], fun _ => rfl⟩
  | cons e t ih =>
    obtain ⟨q, y⟩ := e
    obtain ⟨h1, h2, h3, h4⟩ := (portsWf_cons q y t).1 h
    obtain ⟨i1, i2, i3⟩ := ih h4
    have hlt : ∀ e ∈ resetPorts t, q < e.1 := fun e he => by
      obtain ⟨x, hx⟩ := i2 e he; exact h1 (e.1, x) hx
    refine ⟨portsWf_consPort _ _ _ i1 h2 hlt, ?_, ?_⟩
    · intro e he
      simp only [resetPorts, consPort] at he
      split at he
      · obtain ⟨x, hx⟩ := i2 e he; exact ⟨x, by simp [hx]⟩
      · rcases List.mem_cons.1 he with rfl | he
        · exact ⟨y, by simp⟩
        · obtain ⟨x, hx⟩ := i2 e he; exact ⟨x, by simp [hx]⟩
    · intro p
      simp only [resetPorts]
      by_cases hq : q = p
      · subst hq
        rw [portAt_consPort_same _ _ _ fun _ => portAt_of_forall_lt _ _ hlt]; simp [portAt]
      · rw [portAt_consPort_other _ _ _ _ hq, i3]; simp [portAt, hq]

/-- What outlives a reset of the table cache is still R80's (R32, R162). -/
theorem cacheWf_afterReset (c : List CachedTable) (n : Nat) (h : cacheWf c = true) :
    cacheWf (c.map fun t => t.afterReset n) = true := by
  rw [cacheWf_iff] at h ⊢
  refine ⟨by simpa [Function.comp_def, CachedTable.afterReset] using h.1, ?_⟩
  intro t ht
  obtain ⟨u, hu, rfl⟩ := List.mem_map.1 ht
  have hok := h.2 u hu
  simp only [CachedTable.ok, CachedTable.afterReset] at hok ⊢
  conv_lhs => rw [hok]
  rw [List.take_take, List.length_take]

/-! ## Receiving bytes -/

/-- Bytes sent on a port stand behind those received before; a port that does not exist takes none (R60, R152). -/
theorem State.callerSend_some (s t : State) (p : Nat) (bytes : List Byte) (h : s.callerSend p bytes = some t) :
    p < Config.nPorts ∧ t = s.receive p bytes := by
  unfold State.callerSend at h
  split at h
  · next hp => cases h; exact ⟨hp, rfl⟩
  · cases h

theorem State.port_receive_same (s : State) (hs : portsWf s.ports = true) (p : Nat) (bytes : List Byte) :
    (s.receive p bytes).port p = { s.port p with rx := (s.port p).rx ++ bytes } :=
  State.port_setPort_same _ _ _ (.inr hs)

theorem State.port_receive_other (s : State) (p q : Nat) (bytes : List Byte) (h : p ≠ q) :
    (s.receive p bytes).port q = s.port q := State.port_setPort_other _ _ _ _ h

/-! ## The transient run of a buffer command -/

/-- A run over `k + m` bytes is one over `k` bytes and then one over `m`. -/
theorem BufferRun.after_add {α : Type} (update : α → Byte → α) (data : List Byte) (k m : Nat) (r : BufferRun α) :
    BufferRun.after update data (k + m) r = BufferRun.after update data m (BufferRun.after update data k r) := by
  induction k generalizing r with
  | zero => simp [BufferRun.after]
  | succ k ih => rw [show k + 1 + m = k + m + 1 by omega]; simp [BufferRun.after, ih]

/-- Past the end of the buffer nothing is read (R42). -/
theorem BufferRun.after_end {α : Type} (update : α → Byte → α) (data : List Byte) (k : Nat) (r : BufferRun α)
    (h : data.length ≤ r.pos) : BufferRun.after update data k r = r := by
  induction k with
  | zero => rfl
  | succ k ih => simp [BufferRun.after, BufferRun.advance, List.getElem?_eq_none h, ih]

end Sys2Proof.Machine
end

