-- ==== Sys2Proof/Laws/Serve.lean ====
section
/-! SUPPORT. Which port moves, and what a step can do. -/

namespace Sys2Proof.Machine

theorem startsFrame_command (bs rest : List Byte) (i : Instr) (h : decode bs = .command i rest) :
    startsFrame bs = true := by simp [startsFrame, h]

theorem startsFrame_illegalCommand (bs rest : List Byte) (op : Byte) (h : decode bs = .illegalCommand op rest) :
    startsFrame bs = true := by simp [startsFrame, h]

theorem startsFrame_eq_false_iff (bs : List Byte) : startsFrame bs = false ↔ decode bs = .incomplete := by
  unfold startsFrame; split <;> simp_all

@[simp] theorem startsFrame_nil : startsFrame [] = false := rfl

theorem ne_idle_of_startsFrame (x : Port) (h : startsFrame x.rx = true) : x ≠ .idle := by
  rintro rfl; simp [Port.idle] at h

/-- A port is ready exactly when its received bytes enable a step. -/
theorem State.mem_readyPorts (s : State) (h : portsWf s.ports = true) (p : Nat) :
    p ∈ s.readyPorts ↔ startsFrame (s.port p).rx = true := by
  simp only [State.readyPorts, List.mem_map, List.mem_filter, State.port]
  constructor
  · rintro ⟨⟨q, x⟩, ⟨hm, hs⟩, rfl⟩
    rw [((mem_iff_portAt _ h _ _).1 hm).1]; exact hs
  · intro hs
    exact ⟨(p, portAt p s.ports), ⟨(mem_iff_portAt _ h _ _).2 ⟨rfl, ne_idle_of_startsFrame _ hs⟩, hs⟩, rfl⟩

/-- One of the ports offered is chosen. -/
theorem choosePort_mem (n p : Nat) (ready : List Nat) (h : choosePort n ready = some p) : p ∈ ready := by
  unfold choosePort at h
  split at h
  · split at h
    · next hc => cases h; simpa using hc
    · exact List.mem_of_getElem? h
  · exact List.mem_of_getElem? h

theorem choosePort_ne_none (n : Nat) (ready : List Nat) (h : ready ≠ []) : choosePort n ready ≠ none := by
  have hlt : Config.arbiter n % ready.length < ready.length := Nat.mod_lt _ (List.length_pos_of_ne_nil h)
  unfold choosePort
  split
  · split <;> simp [hlt]
  · simp [hlt]

/-- A ready port whose turn it is gets it. -/
theorem choosePort_due (n p : Nat) (ready : List Nat) (h : duePort n = some p) (hp : p ∈ ready) :
    choosePort n ready = some p := by simp [choosePort, h, hp]

/-- Where a gap is running, its turn comes. -/
theorem nextTurn_add (n turn gap : Nat) (h : nextTurn n = (turn, gap)) : nextTurn (n + gap) = (turn, 0) := by
  induction gap generalizing n with
  | zero => exact h
  | succ k ih =>
    rw [show n + (k + 1) = n + 1 + k by omega]
    exact ih (n + 1) (by simp [nextTurn, h])

/-- Every turn comes. -/
theorem nextTurn_reaches (turn : Nat) : ∃ n, turn ≤ n ∧ nextTurn n = (turn, 0) := by
  induction turn with
  | zero => exact ⟨0 + Config.turnGap 0, by omega, nextTurn_add 0 _ _ rfl⟩
  | succ t ih =>
    obtain ⟨n, hn, h⟩ := ih
    exact ⟨n + 1 + Config.turnGap (t + 1), by omega, nextTurn_add _ _ _ (by simp [nextTurn, h])⟩

/-- Every port has a turn again, however many frames have been served (R168). -/
theorem duePort_again (n p : Nat) (h : p < Config.nPorts) : ∃ m, n ≤ m ∧ duePort m = some p := by
  obtain ⟨m, hm, hd⟩ := nextTurn_reaches (n * Config.nPorts + p)
  refine ⟨m, ?_, ?_⟩
  · have : n * 1 ≤ n * Config.nPorts := Nat.mul_le_mul_left _ (by omega)
    omega
  · simp [duePort, hd, Nat.mod_eq_of_lt h]

/-- The port that moves next is one of the ready ports. -/
theorem State.pickPort_mem (s : State) (p : Nat) (h : s.pickPort = some p) : p ∈ s.readyPorts := by
  unfold State.pickPort at h
  split at h
  · cases h
  · next q hq => cases h; simp [hq]
  · next q r more hq => rw [hq]; exact choosePort_mem _ _ _ h

/-- A ready port whose turn it is moves. -/
theorem State.pickPort_due (s : State) (p : Nat) (h : duePort s.picks = some p) (hp : p ∈ s.readyPorts) :
    s.pickPort = some p := by
  unfold State.pickPort
  split
  · next hq => simp [hq] at hp
  · next q hq => simp [hq] at hp; simp [hp]
  · next q r more hq => exact choosePort_due _ _ _ h (hq ▸ hp)

/-- No port moves exactly when none is ready. -/
theorem State.pickPort_eq_none_iff (s : State) : s.pickPort = none ↔ s.readyPorts = [] := by
  unfold State.pickPort
  split
  · next hq => simp [hq]
  · next q hq => simp [hq]
  · next q r more hq =>
    simp only [hq, reduceCtorEq, iff_false]
    exact choosePort_ne_none _ _ (by simp)

theorem State.pickPort_startsFrame (s : State) (hs : portsWf s.ports = true) (p : Nat) (h : s.pickPort = some p) :
    startsFrame (s.port p).rx = true := (s.mem_readyPorts hs p).1 (s.pickPort_mem p h)

/-- A port that has received something, or is owed something, exists. -/
theorem State.port_lt (s : State) (hs : portsWf s.ports = true) (p : Nat) (h : s.port p ≠ .idle) : p < Config.nPorts :=
  (((portsWf_iff _).1 hs).2 (p, s.port p) ((mem_iff_portAt _ hs _ _).2 ⟨rfl, h⟩)).1

theorem State.pickPort_lt (s : State) (hs : portsWf s.ports = true) (p : Nat) (h : s.pickPort = some p) :
    p < Config.nPorts := s.port_lt hs p (ne_idle_of_startsFrame _ (s.pickPort_startsFrame hs p h))

/-- What beginning a frame changes. -/
theorem State.beginFrame_began (s : State) (hs : portsWf s.ports = true) (p : Nat) (rest : List Byte) :
    Began s (s.beginFrame p rest) p rest where
  consumed := portAt_putPort_same _ _ _ (.inr hs)
  others _ h := portAt_putPort_other _ _ _ _ (Ne.symm h)
  serving := rfl
  picks := rfl
  strategy := rfl
  cache := rfl

theorem State.beginFrame_inv (s : State) (h : Inv s) (p : Nat) (rest : List Byte) (hp : p < Config.nPorts) :
    Inv (s.beginFrame p rest) where
  ports := portsWf_putPort _ _ _ h.ports hp
  serving := hp
  cache := h.cache

/-- The three things a step can be: waiting, a command, IllegalCommand. -/
theorem step_cases (s : State) :
    (s.pickPort = none ∧ step s = .next s) ∨
    (∃ p i rest, s.pickPort = some p ∧ decode (s.port p).rx = .command i rest ∧
      step s = exec i (s.beginFrame p rest)) ∨
    (∃ p op rest, s.pickPort = some p ∧ decode (s.port p).rx = .illegalCommand op rest ∧
      step s = .next (s.beginFrame p rest).illegalCommand) ∨
    (∃ p, s.pickPort = some p ∧ decode (s.port p).rx = .incomplete ∧ step s = .next s) := by
  unfold step State.serveNext
  cases hp : s.pickPort with
  | none => exact .inl ⟨rfl, rfl⟩
  | some p =>
    refine .inr ?_
    simp only [State.servePort, State.fetch]
    cases hd : decode (s.port p).rx with
    | command i rest => exact .inl ⟨p, i, rest, rfl, hd, rfl⟩
    | illegalCommand op rest => exact .inr (.inl ⟨p, op, rest, rfl, hd, rfl⟩)
    | incomplete => exact .inr (.inr ⟨p, rfl, hd, rfl⟩)

/-- The port that moves has a frame to serve, so the last case of `step_cases` does not happen in a canonical state. -/
theorem State.pickPort_not_incomplete (s : State) (hs : portsWf s.ports = true) (p : Nat) (h : s.pickPort = some p) :
    decode (s.port p).rx ≠ .incomplete := fun hd => by
  have := s.pickPort_startsFrame hs p h
  rw [(startsFrame_eq_false_iff _).2 hd] at this
  cases this

/-! ## Placing a frame -/

/-- Putting a frame on a port that was ready leaves the ready ports as they were. -/
theorem readyPorts_putPort_ready (p : Nat) (x : Port) (l : List (Nat × Port)) (h : portsWf l = true)
    (hx : startsFrame x.rx = true) (ho : startsFrame (portAt p l).rx = true) :
    ((putPort p x l).filter fun e => startsFrame e.2.rx).map Prod.fst =
      (l.filter fun e => startsFrame e.2.rx).map Prod.fst := by
  have hi : x.isIdle = false := (Port.isIdle_false_iff x).2 (ne_idle_of_startsFrame _ hx)
  induction l with
  | nil => cases ho
  | cons e t ih =>
    obtain ⟨q, y⟩ := e
    obtain ⟨h1, h2, h3, h4⟩ := (portsWf_cons q y t).1 h
    simp only [putPort]
    split
    · next hlt =>
      rw [portAt_of_forall_lt] at ho
      · cases ho
      · intro e he
        rcases List.mem_cons.1 he with rfl | he
        · exact hlt
        · exact hlt.trans (h1 e he)
    · split
      · next heq =>
        subst heq
        simp only [portAt, if_true] at ho
        simp [consPort, hi, hx, ho]
      · next hne =>
        have := ih h4 (by simpa [portAt, show ¬ q = p by omega] using ho)
        simp only [List.filter_cons]
        split <;> simp [this]

/-- Putting a frame on a port while none is ready makes it the only one. -/
theorem readyPorts_putPort_none (p : Nat) (x : Port) (l : List (Nat × Port)) (hx : startsFrame x.rx = true)
    (ho : (l.filter fun e => startsFrame e.2.rx).map Prod.fst = []) :
    ((putPort p x l).filter fun e => startsFrame e.2.rx).map Prod.fst = [p] := by
  have hi : x.isIdle = false := (Port.isIdle_false_iff x).2 (ne_idle_of_startsFrame _ hx)
  have ho : l.filter (fun e => startsFrame e.2.rx) = [] := by simpa using ho
  induction l with
  | nil => simp [putPort, consPort, hi, hx]
  | cons e t ih =>
    obtain ⟨q, y⟩ := e
    rw [List.filter_cons] at ho
    split at ho
    · cases ho
    · next hy =>
      simp only [putPort]
      split
      · simp [consPort, hi, hx, hy, ho]
      · split
        · simp [consPort, hi, hx, ho]
        · rw [List.filter_cons, if_neg hy]; exact ih (by simp [ho]) ho

end Sys2Proof.Machine
end

