-- ==== Sys2Proof/Tests/Slice0.lean ====
section
/-! SUPPORT. Tests, and for every statement with hypotheses a witness that meets them. Expected values are those of
95_test_vectors.md (the vector is named), or are worked out by hand from the rule named. -/

namespace Sys2Proof.Tests

open Sys2Proof.Machine

/-! ## States of the tests -/

/-- One port with bytes received, everything else as after reset. -/
def oneFrame (bytes : List Byte) : State := { State.reset with ports := [(0, { rx := bytes, tx := [] })] }

/-- The same with a cache that holds the first two entries of the Modbus table (values TE-01, TE-02). -/
def cachedFrame (bytes : List Byte) : State :=
  { oneFrame bytes with strategy := .cached, cache := [{ poly := 0xA001#16, entries := [0x0000#16, 0xC0C1#16] }] }

/-- What one step sends on port 0, as bytes. -/
def sentByOneStep (s : State) : List (List Byte) :=
  match step s with
  | .next t => (t.port 0).tx.map Response.frame
  | .fault _ => []
  | .refused _ => []

theorem oneFrame_ports (b : Byte) (bs : List Byte) : portsWf (oneFrame (b :: bs)).ports = true := by
  rw [oneFrame, portsWf_cons]
  exact ⟨by simp, Nat.succ_pos _, by simp [Port.idle], rfl⟩

theorem oneFrame_inv (b : Byte) (bs : List Byte) : Inv (oneFrame (b :: bs)) :=
  ⟨oneFrame_ports b bs, Nat.succ_pos _, rfl⟩

theorem cachedFrame_cacheWf (bs : List Byte) : cacheWf (cachedFrame bs).cache = true := by
  show cacheWf [{ poly := 0xA001#16, entries := [0x0000#16, 0xC0C1#16] }] = true
  decide +kernel

theorem cachedFrame_inv (b : Byte) (bs : List Byte) : Inv (cachedFrame (b :: bs)) :=
  ⟨oneFrame_ports b bs, Nat.succ_pos _, cachedFrame_cacheWf _⟩

/-! ## WellFormed: the one check, at its boundary -/

theorem test_wf_refuses_a_buffer_too_long :
    (Instr.crc16Calc 0#32 (List.replicate (2 ^ 32) 0#8)).wf = false ∧
    (Instr.crc16Buf 0#32 (List.replicate (2 ^ 32) 0#8) 0#16).wf = false ∧
    (Instr.crc8Calc 0#8 0#8 0#8 (List.replicate (2 ^ 32) 0#8)).wf = false := by
  simp only [Instr.wf, bufferFits, Config.maxFrameLen, List.length_replicate]
  decide

theorem test_wf_accepts_the_longest_buffer :
    (Instr.crc16Calc 0#32 (List.replicate (2 ^ 32 - 1) 0#8)).wf = true := by
  simp only [Instr.wf, bufferFits, Config.maxFrameLen, List.length_replicate]
  decide

/-! ## Decoding words written out from R65 -/

theorem test_decode_crc16Entry : decode [0x10#8, 0x80#8, 0x01#8, 0xA0#8, 0xFF#8, 0xFF#8] =
    .command (.crc16Entry 0x80#8 0xFFFFA001#32) [] := by decide -- TF-03

theorem test_decode_crc16Byte : decode [0x11#8, 0x01#8, 0xA0#8, 0xFF#8, 0xFF#8, 0x32#8, 0x7E#8, 0x94#8] =
    .command (.crc16Byte 0xFFFFA001#32 0x32#8 0x947E#16) [] := by decide -- P5 t1

theorem test_decode_crc16Buf :
    decode [0x12#8, 0xBC#8, 0xA6#8, 0x00#8, 0x00#8, 0x42#8, 0x13#8, 0x02#8, 0x00#8, 0x00#8, 0x00#8, 0x35#8, 0x36#8, 0x99#8] =
      .command (.crc16Buf 0x0000A6BC#32 [0x35#8, 0x36#8] 0x1342#16) [0x99#8] := by decide -- P2 t1, shorter

theorem test_decode_crc16Calc :
    decode [0x13#8, 0xBC#8, 0xA6#8, 0x00#8, 0x00#8, 0x02#8, 0x00#8, 0x00#8, 0x00#8, 0xC7#8, 0x70#8] =
      .command (.crc16Calc 0x0000A6BC#32 [0xC7#8, 0x70#8]) [] := by decide -- P3 t0

theorem test_decode_crc8Byte : decode [0x20#8, 0x07#8, 0x31#8, 0x97#8] = .command (.crc8Byte 0x07#8 0x31#8 0x97#8) [] := by
  decide -- R65, format W8B

theorem test_decode_crc8Calc :
    decode [0x21#8, 0x07#8, 0xAB#8, 0x0F#8, 0x02#8, 0x00#8, 0x00#8, 0x00#8, 0x31#8, 0x32#8] =
      .command (.crc8Calc 0x07#8 0xAB#8 0x0F#8 [0x31#8, 0x32#8]) [] := by decide -- R65, format C8

theorem test_decode_popcnt32 : decode [0x30#8, 0x4E#8, 0x00#8, 0x00#8, 0x80#8] = .command (.popcnt32 0x8000004E#32) [] := by
  decide -- R65, format U32

theorem test_decode_popcnt16 : decode [0x31#8, 0x72#8, 0x00#8, 0xFF#8, 0xFF#8] = .command (.popcnt16 0xFFFF0072#32) [] := by
  decide -- P4 t5

theorem test_decode_rev8 : decode [0x32#8, 0x72#8] = .command (.rev8 0x72#8) [] := by decide -- P4 t3

theorem test_decode_reserved : decode [0x14#8, 0x32#8] = .illegalCommand 0x14#8 [0x32#8] := by decide -- TF-09

theorem test_decode_incomplete : decode [0x13#8, 0x01#8, 0xA0#8] = .incomplete := by decide -- TF-12

/-- The opcode map has one row a byte and one a command (R64). -/
theorem test_opcode_table_rows_differ :
    (opcodeTable.map Prod.fst).Nodup ∧ (opcodeTable.map Prod.snd).Nodup ∧
      opcodeTable.all (fun row => row.1 == row.2.code) = true := by decide

theorem test_table_word_of_a_buffer_row : decodeTableWord 8 0x12 = some (.crc16Buf 0#32 [] 0#16) := by decide

theorem test_placed_word_runs_after_reset :
    sentByOneStep (State.reset.withFetchWord 8 0x12) = [[0x00#8, 0x00#8, 0x00#8]] := by decide +kernel

/-! ## One step a command -/

theorem test_crc16Entry_step :
    sentByOneStep (oneFrame [0x10#8, 0x80#8, 0x01#8, 0xA0#8, 0xFF#8, 0xFF#8]) = [[0x00#8, 0x01#8, 0xA0#8]] := by
  decide +kernel -- TF-03

theorem test_crc16Entry_cached_step :
    sentByOneStep (cachedFrame [0x10#8, 0xFF#8, 0x01#8, 0xA0#8, 0x00#8, 0x00#8]) = [[0x00#8, 0x40#8, 0x40#8]] := by
  decide +kernel -- TE-08, an entry the cache does not hold yet

theorem test_crc16Byte_step :
    sentByOneStep (oneFrame [0x11#8, 0x01#8, 0xA0#8, 0xFF#8, 0xFF#8, 0x31#8, 0xFF#8, 0xFF#8]) = [[0x00#8, 0x7E#8, 0x94#8]] := by
  decide +kernel -- P5 t0

theorem test_crc16Byte_dnp_step :
    sentByOneStep (oneFrame [0x11#8, 0xBC#8, 0xA6#8, 0x00#8, 0x00#8, 0x31#8, 0x00#8, 0x00#8]) = [[0x00#8, 0x9A#8, 0xAD#8]] := by
  decide +kernel -- T16B-06, no transform

theorem test_crc16Buf_dnp_resume_step :
    sentByOneStep (oneFrame [0x12#8, 0xBC#8, 0xA6#8, 0x00#8, 0x00#8, 0x42#8, 0x13#8, 0x05#8, 0x00#8, 0x00#8, 0x00#8,
      0x35#8, 0x36#8, 0x37#8, 0x38#8, 0x39#8]) = [[0x00#8, 0xEA#8, 0x82#8]] := by
  decide +kernel -- P2 t1

theorem test_crc16Buf_dnp_zero_step :
    sentByOneStep (oneFrame [0x12#8, 0xBC#8, 0xA6#8, 0x00#8, 0x00#8, 0x00#8, 0x00#8, 0x01#8, 0x00#8, 0x00#8, 0x00#8, 0x01#8]) =
      [[0x00#8, 0xC9#8, 0xA1#8]] := by
  decide +kernel -- P3 t1

theorem test_crc16Calc_modbus_step :
    sentByOneStep (oneFrame [0x13#8, 0x01#8, 0xA0#8, 0xFF#8, 0xFF#8, 0x09#8, 0x00#8, 0x00#8, 0x00#8,
      0x31#8, 0x32#8, 0x33#8, 0x34#8, 0x35#8, 0x36#8, 0x37#8, 0x38#8, 0x39#8]) = [[0x00#8, 0x37#8, 0x4B#8]] := by
  decide +kernel -- TF-01

theorem test_crc16Calc_dnp_polynomial_alone_step :
    sentByOneStep (oneFrame [0x13#8, 0xBC#8, 0xA6#8, 0xFF#8, 0xFF#8, 0x09#8, 0x00#8, 0x00#8, 0x00#8,
      0x31#8, 0x32#8, 0x33#8, 0x34#8, 0x35#8, 0x36#8, 0x37#8, 0x38#8, 0x39#8]) = [[0x00#8, 0x1C#8, 0x6A#8]] := by
  decide +kernel -- T16-12

theorem test_crc8Byte_step : sentByOneStep (oneFrame [0x20#8, 0x9B#8, 0xA5#8, 0x3C#8]) = [[0x00#8, 0xBB#8]] := by
  decide +kernel -- T8B-11

theorem test_crc8Calc_step :
    sentByOneStep (oneFrame [0x21#8, 0x2F#8, 0xFF#8, 0xFF#8, 0x09#8, 0x00#8, 0x00#8, 0x00#8,
      0x31#8, 0x32#8, 0x33#8, 0x34#8, 0x35#8, 0x36#8, 0x37#8, 0x38#8, 0x39#8]) = [[0x00#8, 0xDF#8]] := by
  decide +kernel -- T8-04

theorem test_popcnt32_step :
    sentByOneStep (oneFrame [0x30#8, 0x78#8, 0x56#8, 0x34#8, 0x12#8]) = [[0x00#8, 0x0D#8, 0x00#8, 0x00#8, 0x00#8]] := by
  decide +kernel -- TB-07

theorem test_popcnt16_step : sentByOneStep (oneFrame [0x31#8, 0x78#8, 0x56#8, 0x34#8, 0x12#8]) = [[0x00#8, 0x08#8, 0x00#8]] := by
  decide +kernel -- TB-18

theorem test_rev8_step : sentByOneStep (oneFrame [0x32#8, 0xC7#8]) = [[0x00#8, 0xE3#8]] := by decide +kernel -- TB-29

theorem test_illegal_step : sentByOneStep (oneFrame [0xFF#8, 0x32#8, 0x12#8]) = [[0x01#8]] := by decide +kernel -- TF-10

/-! ## The assembler -/

theorem test_assemble_a_program_line :
    (parseLine "t5 = popcnt16   0xFFFF0072".toList).bind (fun l => l.run []) = some [(5, 4)] := by decide +kernel -- P4 t5

theorem test_assemble_hex_data :
    (parseLine ("crc16.buf CRC16_DNP, ".toList ++ openBrace :: "C7 70".toList ++ closeBrace :: ", 0xFFFF".toList)).bind
      (fun l => l.cmd.assemble []) = some [.crc16Buf 0x0000A6BC#32 [0xC7#8, 0x70#8] 0xFFFF#16] := by decide +kernel -- R70

theorem test_assemble_crc8_cont :
    (parseLine ("t1 = crc8.cont 0x07, ".toList ++ openBrace :: "31 32".toList ++ closeBrace :: ", t0".toList)).bind
      (fun l => l.cmd.assemble [(0, 0)]) = some [.crc8Byte 0x07#8 0x31#8 0x00#8, .crc8Byte 0x07#8 0x32#8 0x97#8] := by
  decide +kernel -- R71, with the first result of R111's example

theorem test_assembler_rejects_a_wide_literal :
    (parseLine "rev8 256".toList).bind (fun l => l.cmd.assemble []) = none := by decide +kernel -- R70

/-! ## Witnesses: each statement's hypotheses are met together -/

theorem witness_DecodeOfEncodeIsTheCommand :
    (Instr.crc16Buf 0#32 (List.replicate (2 ^ 32 - 1) 0#8) 0#16).wf = true ∧ (Instr.crc16Buf 0#32 [] 0#16).wf = true := by
  simp only [Instr.wf, bufferFits, Config.maxFrameLen, List.length_replicate]
  decide

theorem witness_DecodedBytesAreTheFrame : decode [0x32#8, 0x12#8, 0xFF#8] = .command (.rev8 0x12#8) [0xFF#8] := by decide

theorem witness_FieldLayoutOfEveryFrame :
    (ofLE32 0x00#8 0x00#8 0x00#8 0x00#8).toNat = ([] : List Byte).length ∧
    (ofLE32 0x00#8 0x01#8 0x00#8 0x00#8).toNat = (List.replicate 256 0xAA#8).length := by
  rw [List.length_replicate]; decide

theorem witness_MultiByteFieldsAreLittleEndian :
    fieldBuffer [0x02#8, 0x00#8, 0x00#8, 0x00#8, 0xAA#8, 0xBB#8, 0xCC#8] = some ([0xAA#8, 0xBB#8], [0xCC#8]) := by decide

theorem witness_FrameLengthIsKnownFromTheHeader :
    (Instr.crc16Calc 0#32 [0xAA#8]).wf = true ∧ frameLength [0x32#8] = some 2 ∧
    lengthKnownAfter (.crc16Calc 0#32 [0xAA#8]) ≤ 9 ∧ lengthKnownAfter (.rev8 0#8) ≤ 1 := by decide

theorem witness_NoOperandValueIsIllegal :
    opcodeOf 0x32#8 ≠ none ∧ frameLength [0x32#8, 0xFF#8] = some 2 ∧ 2 ≤ [0x32#8, 0xFF#8].length := by decide

/-- Every boundary of the reserved ranges (R68). -/
theorem witness_ReservedOpcodesAreTheIllegalOnes :
    [0x00#8, 0x0F#8, 0x14#8, 0x1F#8, 0x22#8, 0x2F#8, 0x33#8, 0xFF#8].all reservedOpcode = true ∧
    [0x10#8, 0x13#8, 0x20#8, 0x21#8, 0x30#8, 0x32#8].all (fun op => !reservedOpcode op) = true := by decide

theorem oneFrame_port_other (bytes : List Byte) (p : Nat) (h : p ≠ 0) : (oneFrame bytes).port p = .idle := by
  simp [State.port, oneFrame, portAt, Ne.symm h]

theorem witness_IncompleteFramesWait :
    (Instr.rev8 0#8).wf = true ∧ 1 < (encode (.rev8 0#8)).length ∧ 0 < (encode (.rev8 0#8)).length ∧
    Inv (oneFrame [0x13#8, 0x01#8]) ∧ ∀ p, (oneFrame [0x13#8, 0x01#8]).fetch p = .incomplete := by
  refine ⟨rfl, by decide, by decide, oneFrame_inv _ _, fun p => ?_⟩
  by_cases h : p = 0
  · subst h; decide
  · rw [State.fetch, oneFrame_port_other _ _ h]; rfl

theorem witness_StepRunsTheDecodedCommand :
    Inv (oneFrame [0x32#8, 0x12#8]) ∧ (oneFrame [0x32#8, 0x12#8]).pickPort = some 0 ∧
    decode ((oneFrame [0x32#8, 0x12#8]).port 0).rx = .command (.rev8 0x12#8) [] :=
  ⟨oneFrame_inv _ _, by decide +kernel, by decide⟩

theorem witness_ThePortThatMovesIsReady :
    Inv (oneFrame [0xFF#8]) ∧ (oneFrame [0xFF#8]).pickPort = some 0 ∧
    Inv (oneFrame [0x32#8]) ∧ (oneFrame [0x32#8]).pickPort = none :=
  ⟨oneFrame_inv _ _, by decide +kernel, oneFrame_inv _ _, by decide +kernel⟩

theorem witness_IllegalCommandAnswersAndChangesNothingElse :
    Inv (oneFrame [0xFF#8, 0x32#8]) ∧ (oneFrame [0xFF#8, 0x32#8]).pickPort = some 0 ∧
    ((oneFrame [0xFF#8, 0x32#8]).port 0).rx = 0xFF#8 :: [0x32#8] ∧ reservedOpcode 0xFF#8 = true :=
  ⟨oneFrame_inv _ _, by decide +kernel, rfl, by decide⟩

theorem witness_PlacedWordRunsNext :
    Inv (oneFrame [0x13#8]) ∧ decodeTableWord 8 0x10 = some (.crc16Entry 0#8 0#32) := ⟨oneFrame_inv _ _, by decide⟩

theorem witness_StepKeepsTheInvariant : ∃ t, Inv (oneFrame [0x32#8, 0x12#8]) ∧ step (oneFrame [0x32#8, 0x12#8]) = .next t :=
  ⟨_, oneFrame_inv _ _, rfl⟩

theorem witness_CallerActionsKeepTheInvariant :
    Inv (oneFrame [0x32#8]) ∧ (0 : Nat) < Config.nPorts ∧ ∃ t, (oneFrame [0x32#8]).callerSend 0 [0x12#8] = some t :=
  ⟨oneFrame_inv _ _, Nat.succ_pos _, _, if_pos (Nat.succ_pos _)⟩

theorem witness_AfterResetEveryPortAcceptsAFrame :
    Inv (cachedFrame [0x13#8]) ∧ (0 : Nat) < Config.nPorts ∧ (Instr.rev8 0#8).wf = true :=
  ⟨cachedFrame_inv _ _, Nat.succ_pos _, rfl⟩

theorem witness_ResetAbandonsUnservedFrames : Inv (oneFrame [0x32#8, 0x12#8]) := oneFrame_inv _ _

/-- The premise of every statement of a CRC16 command's effect, with a cache that holds something. -/
theorem witness_ResultDependsOnTheOperandsAlone : cacheWf (cachedFrame []).cache = true := cachedFrame_cacheWf _

theorem witness_Crc16EntryCommand : cacheWf (cachedFrame []).cache = true := cachedFrame_cacheWf _

theorem witness_Crc16CommandsCompleteTheirTable :
    cacheWf (cachedFrame []).cache = true ∧ (cachedFrame []).strategy = .cached ∧ (oneFrame []).strategy = .onTheFly :=
  ⟨cachedFrame_cacheWf _, rfl, rfl⟩

theorem witness_Crc16ByteCommand : cacheWf (cachedFrame [0x11#8]).cache = true := cachedFrame_cacheWf _

theorem witness_Crc16BufCommand :
    cacheWf (cachedFrame []).cache = true ∧ isDNP 0xFFFFA001#32 = false ∧ (0xFFFF#16 : Half) ≠ 0x0000#16 :=
  ⟨cachedFrame_cacheWf _, by decide, by decide⟩

theorem witness_Crc16CalcCommand : cacheWf (cachedFrame []).cache = true ∧ isDNP 0xFFFFA6BC#32 = false :=
  ⟨cachedFrame_cacheWf _, by decide⟩

theorem witness_ResponseFrameOfEveryCommand : cacheWf (oneFrame [0x32#8]).cache = true := rfl

theorem witness_TableEntryProperties :
    polyOf 0xFFFFA001#32 = polyOf 0x0000A001#32 ∧ (0xFFFFA001#32 : Word) ≠ 0x0000A001#32 ∧ polyOf 0xFFFF0000#32 = 0x0000#16 := by
  decide

theorem witness_OnlyTheDnpSelectorIsDnp : (0x0001#16 : Half) ≠ initialValueOf Config.dnpSelector := by decide

theorem witness_NamedSelectorsHaveTheirValues : (0x0001#16 : Half) ≠ 0x0000#16 := by decide

theorem witness_BufferUpdateOfEverySelector :
    isDNP 0xFFFFA001#32 = false ∧ isDNP 0x0000A6BC#32 = true ∧ (0x0001#16 : Half) ≠ 0x0000#16 := by decide

theorem witness_StreamingLawOfOtherSelectors : isDNP 0x0000A001#32 = false := by decide

theorem witness_ResumeLawOfDnpAndItsException : continueBuffer16 Config.dnpSelector [0x31#8] 0x0000#16 ≠ 0x0000#16 := by
  decide +kernel

theorem witness_TableStrategyNeverShowsInAResult :
    cacheWf (cachedFrame [0x32#8]).cache = true ∧ cacheWf (oneFrame [0x32#8]).cache = true ∧
    SameButTables (cachedFrame [0x32#8]) (oneFrame [0x32#8]) ∧ cachedFrame [0x32#8] ≠ oneFrame [0x32#8] ∧
    (cachedFrame [0x32#8]).strategy = .cached :=
  ⟨cachedFrame_cacheWf _, rfl, ⟨rfl, rfl, rfl⟩, by decide, rfl⟩

theorem witness_NarrowSwarSequenceCountsTheLowHalf : (0x0000FFFF#32 : Word).toNat < 2 ^ 16 := by decide

theorem witness_ReversalExchangesTheBits : (0 : Nat) < 8 ∧ (7 : Nat) < 8 := by decide

theorem witness_BitUtilityLaws : (0x0000FFFF#32 : Word).toNat < 2 ^ 16 := by decide

theorem witness_BuffersAreReadOnceInOrder :
    1 ≤ [0x31#8, 0x32#8].length ∧ 2 ≤ [0x31#8, 0x32#8].length ∧ [0x31#8, 0x32#8].length ≤ 2 ∧ [0x31#8, 0x32#8].length ≤ 3 := by
  decide

theorem witness_BytesMayArriveInPieces : (Instr.rev8 0#8).wf = true ∧ reservedOpcode 0x14#8 = true := by decide

theorem witness_StepKeepsWhatEveryPortIsOwed :
    ∃ t, Inv (cachedFrame [0xFF#8]) ∧ step (cachedFrame [0xFF#8]) = .next t := ⟨_, cachedFrame_inv _ _, rfl⟩

theorem witness_EveryCompleteFrameIsAnswered :
    Inv (cachedFrame [0x32#8, 0x12#8]) ∧ (cachedFrame [0x32#8, 0x12#8]).pendingBytes ≤ 2 :=
  ⟨cachedFrame_inv _ _, by decide⟩

/-- The state after the one step `oneFrame [0x32, 0x12]` takes: it waits. -/
def servedFrame : State :=
  { State.reset with ports := [(0, { rx := [], tx := [.ok (.byte 0x48#8)] })], picks := 1 }

/-- A run in which a REV8 frame is served by the first step, and CORE waits from then on. -/
def waitingRun : Nat → State
  | 0 => oneFrame [0x32#8, 0x12#8]
  | _ + 1 => servedFrame

theorem witness_NoCompleteFrameIsStarved :
    Inv (waitingRun 0) ∧ (∀ k, HostActs (waitingRun k) (waitingRun k) ∧ step (waitingRun k) = .next (waitingRun (k + 1))) ∧
    (answersTo ((waitingRun 0).port 0).rx)[0]? = some (.ok (.byte 0x48#8)) := by
  refine ⟨oneFrame_inv _ _, fun k => ⟨.nothing _, ?_⟩, by decide⟩
  cases k <;> rfl

theorem witness_ServedFramesAreCounted :
    Inv (oneFrame [0xFF#8]) ∧ (oneFrame [0xFF#8]).pickPort = some 0 ∧ (∃ t, step (oneFrame [0xFF#8]) = .next t) ∧
    HostActs State.reset State.reset :=
  ⟨oneFrame_inv _ _, by decide +kernel, ⟨_, rfl⟩, .nothing _⟩

theorem witness_PortsDoNotInteract :
    (∃ t, Inv (oneFrame [0x32#8, 0x12#8]) ∧ step (oneFrame [0x32#8, 0x12#8]) = .next t ∧
      (oneFrame [0x32#8, 0x12#8]).pickPort ≠ some 1) ∧
    Inv (oneFrame [0xFF#8]) ∧ (oneFrame [0x32#8, 0x12#8]).port 1 = (oneFrame [0xFF#8]).port 1 ∧
    (oneFrame [0x32#8, 0x12#8]).pendingBytes ≤ 2 ∧ (oneFrame [0xFF#8]).pendingBytes ≤ 1 :=
  ⟨⟨_, oneFrame_inv _ _, rfl, by decide +kernel⟩, oneFrame_inv _ _, rfl, by decide, by decide⟩

theorem witness_TableCacheIsNotObservable :
    Inv (cachedFrame [0x11#8]) ∧ Inv (oneFrame [0x11#8]) ∧ SameButTables (cachedFrame [0x11#8]) (oneFrame [0x11#8]) :=
  ⟨cachedFrame_inv _ _, oneFrame_inv _ _, ⟨rfl, rfl, rfl⟩⟩

theorem witness_StoredEntriesNeverChange :
    ∃ t, Inv (cachedFrame [0xFF#8]) ∧ step (cachedFrame [0xFF#8]) = .next t ∧
      (cachedEntries 0xA001#16 (cachedFrame [0xFF#8]).cache)[1]? = some 0xC0C1#16 :=
  ⟨_, cachedFrame_inv _ _, rfl, by decide⟩

/-- A number at the bound of its field, a host value, a hex byte, and a character: each side of each clause is met. -/
theorem witness_AssemblerNeverTruncates :
    fit 8 255 = some 0xFF#8 ∧ fit 8 256 = none ∧ (NumArg.host 3).fit 16 [(3, 65535)] = some 0xFFFF#16 ∧
    (NumArg.host 3).fit 16 [(3, 65536)] = none ∧ (NumArg.host 4).fit 16 [(3, 1)] = none ∧
    (DataArg.hex [0, 255]).bytes = some [0x00#8, 0xFF#8] ∧ (DataArg.hex [256]).bytes = none ∧
    (DataArg.ascii ['1', Char.ofNat 127]).bytes = some [0x31#8, 0x7F#8] ∧ (DataArg.ascii [Char.ofNat 128]).bytes = none := by
  decide +kernel

theorem witness_PseudoInstructionsExpand :
    ([0x31#8] : List Byte) ≠ [] ∧ (NumArg.host 0).value [(0, 0x07)] = some (0x07#8 : Byte).toNat ∧
    (NumArg.lit 0xFF).value [] = some (0xFF#8 : Byte).toNat ∧ (DataArg.hex [0x31]).bytes = some [0x31#8] ∧
    (DataArg.hex []).bytes = some [] := by decide +kernel

end Sys2Proof.Tests
end

section
/-! SUPPORT. Proofs about 10_state.md: the packed selector (R22), results as functions of the operands (R20), and what a step
can do to the table cache (R28). -/

namespace Sys2Proof.Machine

/-! ## The packed selector -/

@[simp] theorem initialValueOf_selectorOf (initial poly : Half) : initialValueOf (selectorOf initial poly) = initial :=
  BitVec.extractLsb'_append_eq_left

@[simp] theorem polyOf_selectorOf (initial poly : Half) : polyOf (selectorOf initial poly) = poly :=
  BitVec.extractLsb'_append_eq_right

theorem polyOf_toNat (sel : Word) : (polyOf sel).toNat = sel.toNat % 2 ^ 16 := by
  simp [polyOf]

theorem initialValueOf_toNat (sel : Word) : (initialValueOf sel).toNat = sel.toNat / 2 ^ 16 := by
  have h := sel.isLt
  rw [initialValueOf, BitVec.extractLsb'_toNat, Nat.shiftRight_eq_div_pow, Nat.mod_eq_of_lt (by omega)]

theorem selectorOf_toNat (initial poly : Half) :
    (selectorOf initial poly).toNat = 2 ^ 16 * initial.toNat + poly.toNat := by
  rw [selectorOf, BitVec.toNat_append, Nat.shiftLeft_eq, Nat.mul_comm, Nat.two_pow_add_eq_or_of_lt poly.isLt]

/-- Every selector is the packing of its two fields (R22): quotient and remainder by 2^16 make up the number. -/
@[simp] theorem selectorOf_fields (sel : Word) : selectorOf (initialValueOf sel) (polyOf sel) = sel := by
  refine BitVec.eq_of_toNat_eq ?_
  rw [selectorOf_toNat, initialValueOf_toNat, polyOf_toNat]
  exact Nat.div_add_mod _ _

/-- Settles O33: the fields are quotient and remainder by 2^16, and packing is the bit string they make up. -/
theorem selectorPacksInitialAndPolynomial : Obligations.SelectorPacksInitialAndPolynomial :=
  ⟨fun initial poly => ⟨initialValueOf_selectorOf initial poly, polyOf_selectorOf initial poly⟩, selectorOf_fields,
    fun sel => ⟨polyOf_toNat sel, initialValueOf_toNat sel⟩⟩

/-! ## Results -/

/-- A result delivered over any table cache is the one change `Delivered` names. -/
theorem State.deliver_over_cache_delivered (s : State) (c : List CachedTable) (v : Result) :
    Delivered s (State.deliver { s with cache := c } v) (.ok v) :=
  have h := State.deliver_delivered { s with cache := c } v
  ⟨h.sent, h.others, h.serving, h.picks, h.strategy⟩

/-- Settles O21: a command is one response over a table cache, and over a right cache its value is `resultOf`'s. -/
theorem resultDependsOnTheOperandsAlone : Obligations.ResultDependsOnTheOperandsAlone := by
  intro i s hs
  obtain ⟨c, v, hexec, -, hv⟩ := exec_shape i s
  obtain rfl := hv hs
  exact ⟨_, hexec, s.deliver_over_cache_delivered c _⟩

/-! ## The table cache through a step -/

/-- A command leaves the table cache as it is, or completes one table of it. -/
theorem exec_cache (i : Instr) (s t : State) (h : exec i s = .next t) :
    t.cache = s.cache ∨ ∃ p, t.cache = completeTable p s.cache := by
  obtain ⟨c, v, hexec, hc, -⟩ := exec_shape i s
  obtain rfl := Host.Outcome.next.inj (hexec.symm.trans h)
  exact hc

/-- So does a step: waiting and IllegalCommand do not touch the cache. -/
theorem step_cache (s t : State) (h : step s = .next t) :
    t.cache = s.cache ∨ ∃ p, t.cache = completeTable p s.cache := by
  have ends {u : State} (hu : step s = .next u) : t = u := Host.Outcome.next.inj (h.symm.trans hu)
  obtain ⟨-, hwait⟩ | ⟨p, i, rest, -, -, hexec⟩ | ⟨p, op, rest, -, -, hillegal⟩ | ⟨p, -, -, hwait⟩ := step_cases s
  · exact .inl (congrArg State.cache (ends hwait))
  · exact exec_cache i (s.beginFrame p rest) t (hexec.symm.trans h)
  · exact .inl (by rw [ends hillegal, State.illegalCommand_eq, State.respond_cache, State.beginFrame_cache])
  · exact .inl (congrArg State.cache (ends hwait))

/-- Completing a table keeps every stored entry: of the completed table because it was R80's value already (R28). -/
theorem getElem?_cachedEntries_completeTable (p q : Half) (c : List CachedTable) (h : cacheWf c = true) (i : Nat)
    (v : Half) (hv : (cachedEntries p c)[i]? = some v) : (cachedEntries p (completeTable q c))[i]? = some v := by
  by_cases hpq : p = q
  · subst hpq
    obtain ⟨hi, rfl⟩ := cachedEntries_getElem? p c h i v hv
    rw [cachedEntries_completeTable_same p c h, fullTable_getElem? p i hi]
  · rwa [cachedEntries_completeTable_other q p c hpq]

/-- Settles O56: a step changes the cache at most by completing a table, which keeps the stored entries. -/
theorem storedEntriesNeverChange : Obligations.StoredEntriesNeverChange := by
  intro s t p i v hs hstep hv
  refine ⟨?_, (cachedEntries_getElem? p s.cache hs.cache i v hv).2⟩
  obtain hc | ⟨q, hc⟩ := step_cache s t hstep
  · rwa [hc]
  · rw [hc]
    exact getElem?_cachedEntries_completeTable p q s.cache hs.cache i v hv

end Sys2Proof.Machine
end

section
/-! SUPPORT. Proofs about 20_memory.md: a buffer is read once and in order (R42), and every port is answered one response a frame,
in order, by whatever ports the steps serve (R50). -/

namespace Sys2Proof.Machine

/-! ## Reading a buffer (R42) -/

/-- While the buffer lasts, `k` bytes read are its first `k`, folded in order, and the position is `k`. -/
theorem BufferRun.after_start_of_le {α : Type} (update : α → Byte → α) (data : List Byte) (acc : α) (k : Nat)
    (h : k ≤ data.length) :
    BufferRun.after update data k (.start acc) = { acc := (data.take k).foldl update acc, pos := k } := by
  induction k with
  | zero => rfl
  | succ k ih =>
    rw [BufferRun.after_add, ih (by omega), List.take_succ_eq_append_getElem h, List.foldl_append]
    simp [BufferRun.after, BufferRun.advance, List.getElem?_eq_getElem h]

/-- From the end of the buffer on, the run is the fold over the whole buffer. -/
theorem BufferRun.after_start_of_length_le {α : Type} (update : α → Byte → α) (data : List Byte) (acc : α) (k : Nat)
    (h : data.length ≤ k) :
    BufferRun.after update data k (.start acc) = { acc := data.foldl update acc, pos := data.length } := by
  obtain ⟨m, rfl⟩ := Nat.exists_eq_add_of_le h
  rw [BufferRun.after_add, BufferRun.after_start_of_le update data acc _ le_rfl, List.take_length]
  exact BufferRun.after_end update data m _ le_rfl

/-- What a run over the whole buffer ends with is the fold over it. -/
theorem BufferRun.after_start_length_acc {α : Type} (update : α → Byte → α) (data : List Byte) (acc : α) :
    (BufferRun.after update data data.length (.start acc)).acc = data.foldl update acc :=
  congrArg BufferRun.acc (BufferRun.after_start_of_length_le update data acc _ le_rfl)

/-- Settles O49: by induction on the bytes read; the results of the buffer commands are that fold, from the accumulator they
start at. -/
theorem buffersAreReadOnceInOrder : Obligations.BuffersAreReadOnceInOrder := by
  refine ⟨fun _ => BufferRun.after_start_of_le, fun _ => BufferRun.after_start_of_length_le, ?_, ?_⟩
  · intro sel data acc
    rw [BufferRun.after_start_length_acc]
    rfl
  · intro poly init xorOut data
    rw [BufferRun.after_start_length_acc]
    rfl

/-! ## The first frame of a stream and its answer -/

/-- The response to the first frame of a stream, a command's or a reserved opcode's, and the bytes after that frame; none while
the frame is incomplete (R63, R69, R141). -/
def firstAnswer (bytes : List Byte) : Option (Response × List Byte) :=
  match decode bytes with
  | .command i rest => some (.ok (resultOf i), rest)
  | .illegalCommand _ rest => some (.illegal, rest)
  | .incomplete => none

theorem firstAnswer_command {bytes rest : List Byte} {i : Instr} (h : decode bytes = .command i rest) :
    firstAnswer bytes = some (.ok (resultOf i), rest) := by
  simp only [firstAnswer, h]

theorem firstAnswer_illegalCommand {bytes rest : List Byte} {op : Byte} (h : decode bytes = .illegalCommand op rest) :
    firstAnswer bytes = some (.illegal, rest) := by
  simp only [firstAnswer, h]

/-- An answered frame has at least its opcode byte. -/
theorem firstAnswer_length {bytes rest : List Byte} {r : Response} (h : firstAnswer bytes = some (r, rest)) :
    rest.length < bytes.length := by
  unfold firstAnswer at h
  split at h
  · next hd => cases h; exact decode_command_length _ _ _ hd
  · next hd => cases h; exact decode_illegalCommand_length _ _ _ hd
  · cases h

/-- The first of `k + 1` frames is answered first, and the other `k` from the bytes after it. -/
theorem answersUpTo_succ_some {bytes rest : List Byte} {r : Response} (k : Nat) (h : firstAnswer bytes = some (r, rest)) :
    answersUpTo (k + 1) bytes = r :: answersUpTo k rest := by
  unfold firstAnswer at h
  split at h <;> cases h <;> simp only [answersUpTo, *]

theorem leftAfter_succ_some {bytes rest : List Byte} {r : Response} (k : Nat) (h : firstAnswer bytes = some (r, rest)) :
    leftAfter (k + 1) bytes = leftAfter k rest := by
  unfold firstAnswer at h
  split at h <;> cases h <;> simp only [leftAfter, *]

/-- An incomplete frame is answered by nothing and stays (R69), however many frames are asked for. -/
theorem answersUpTo_none {bytes : List Byte} (k : Nat) (h : firstAnswer bytes = none) : answersUpTo k bytes = [] := by
  unfold firstAnswer at h
  split at h <;> cases h
  cases k <;> simp only [answersUpTo, *]

theorem leftAfter_none {bytes : List Byte} (k : Nat) (h : firstAnswer bytes = none) : leftAfter k bytes = bytes := by
  unfold firstAnswer at h
  split at h <;> cases h
  cases k <;> simp only [leftAfter, *]

/-! ## What is owed for a stream, frame by frame -/

/-- Any two counts of frames that are at least the number of bytes give the same responses and the same bytes left. -/
theorem answersUpTo_leftAfter_enough (k m : Nat) (bytes : List Byte) (hk : bytes.length ≤ k) (hm : bytes.length ≤ m) :
    answersUpTo k bytes = answersUpTo m bytes ∧ leftAfter k bytes = leftAfter m bytes := by
  cases hf : firstAnswer bytes with
  | none => simp only [answersUpTo_none _ hf, leftAfter_none _ hf, and_self]
  | some a =>
    obtain ⟨r, rest⟩ := a
    have hlen := firstAnswer_length hf
    obtain ⟨k, rfl⟩ := Nat.exists_eq_add_one.2 (show 0 < k by omega)
    obtain ⟨m, rfl⟩ := Nat.exists_eq_add_one.2 (show 0 < m by omega)
    obtain ⟨hanswers, hleft⟩ := answersUpTo_leftAfter_enough k m rest (by omega) (by omega)
    rw [answersUpTo_succ_some k hf, answersUpTo_succ_some m hf, leftAfter_succ_some k hf, leftAfter_succ_some m hf, hanswers]
    exact ⟨rfl, hleft⟩
termination_by bytes.length

/-- The first frame of a stream is answered, and then what is owed for the bytes after it. -/
theorem answersTo_some {bytes rest : List Byte} {r : Response} (h : firstAnswer bytes = some (r, rest)) :
    answersTo bytes = r :: answersTo rest := by
  have hlen := firstAnswer_length h
  calc answersTo bytes = answersUpTo (bytes.length + 1) bytes :=
        (answersUpTo_leftAfter_enough _ _ bytes le_rfl (Nat.le_succ _)).1
    _ = r :: answersUpTo bytes.length rest := answersUpTo_succ_some _ h
    _ = r :: answersTo rest := by rw [(answersUpTo_leftAfter_enough _ _ rest hlen.le le_rfl).1, answersTo]

/-- The first frame of a stream is not left over: what is left is left of the bytes after it. -/
theorem leftOver_some {bytes rest : List Byte} {r : Response} (h : firstAnswer bytes = some (r, rest)) :
    leftOver bytes = leftOver rest := by
  have hlen := firstAnswer_length h
  calc leftOver bytes = leftAfter (bytes.length + 1) bytes :=
        (answersUpTo_leftAfter_enough _ _ bytes le_rfl (Nat.le_succ _)).2
    _ = leftAfter bytes.length rest := leftAfter_succ_some _ h
    _ = leftOver rest := (answersUpTo_leftAfter_enough _ _ rest hlen.le le_rfl).2

/-! ## What a step does to the ports -/

/-- `t` is `s` after the first frame of port `p` was answered with `r`, which leaves `rest` of its bytes: the other ports are as they
were (R50, R55). -/
structure Served (s t : State) (p : Nat) (r : Response) (rest : List Byte) : Prop where
  answer : firstAnswer (s.port p).rx = some (r, rest)
  served : t.port p = { rx := rest, tx := (s.port p).tx ++ [r] }
  others : ∀ q, q ≠ p → t.port q = s.port q

/-- Beginning the first frame of a port and then sending its answer serves that port. -/
theorem Began.served {s u t : State} {p : Nat} {r : Response} {rest : List Byte} (hbegan : Began s u p rest)
    (hsent : Delivered u t r) (h : firstAnswer (s.port p).rx = some (r, rest)) : Served s t p r rest := by
  obtain ⟨hconsumed, hothers, rfl, -⟩ := hbegan
  refine ⟨h, ?_, fun q hq => (hsent.others q hq).trans (hothers q hq)⟩
  rw [hsent.sent, hconsumed]

/-- A step waits where no port is ready, or serves the port that is picked. -/
theorem step_waits_or_serves (s t : State) (hs : Inv s) (h : step s = .next t) :
    (s.pickPort = none ∧ t = s) ∨ ∃ p r rest, s.pickPort = some p ∧ Served s t p r rest := by
  have ends {u : State} (hu : step s = .next u) : t = u := Host.Outcome.next.inj (h.symm.trans hu)
  obtain ⟨hp, hwait⟩ | ⟨p, i, rest, hp, hd, hexec⟩ | ⟨p, op, rest, hp, hd, hillegal⟩ | ⟨p, hp, hd, -⟩ := step_cases s
  · exact .inl ⟨hp, ends hwait⟩
  · obtain ⟨u, hu, hsent⟩ := resultDependsOnTheOperandsAlone i (s.beginFrame p rest) hs.cache
    obtain rfl := ends (hexec.trans hu)
    exact .inr ⟨p, _, rest, hp, (s.beginFrame_began hs.ports p rest).served hsent (firstAnswer_command hd)⟩
  · obtain rfl := ends hillegal
    exact .inr ⟨p, _, rest, hp, (s.beginFrame_began hs.ports p rest).served (State.respond_delivered _ _)
      (firstAnswer_illegalCommand hd)⟩
  · exact absurd hd (s.pickPort_not_incomplete hs.ports p hp)

/-! ## What every port is owed (R50) -/

/-- Serving a port moves its first answer from what it is owed to what it has been sent. -/
theorem Served.promised_eq {s t : State} {p : Nat} {r : Response} {rest : List Byte} (h : Served s t p r rest) (q : Nat) :
    t.promised q = s.promised q := by
  by_cases hq : q = p
  · subst hq
    simp only [State.promised, h.served, answersTo_some h.answer, leftOver_some h.answer, List.append_assoc,
      List.singleton_append]
  · simp only [State.promised, h.others q hq]

/-- Settles O51: a step waits, or serves one port, and serving keeps what every port is promised. -/
theorem stepKeepsWhatEveryPortIsOwed : Obligations.StepKeepsWhatEveryPortIsOwed := by
  intro s t hs hstep p
  obtain ⟨-, rfl⟩ | ⟨q, r, rest, -, hserved⟩ := step_waits_or_serves s t hs hstep
  · rfl
  · exact hserved.promised_eq p

end Sys2Proof.Machine
end

section
/-! SUPPORT. Proofs about 30_encoding.md: the values of little-endian fields (R61), the field layouts (R65), that every operand value
is legal (R67), the response frame (R63), and the pseudo-instructions (R71). -/

namespace Sys2Proof.Machine

/-! ## Little-endian values (R61) -/

/-- A byte below a bit string adds its value to 2^8 times the string's. -/
theorem toNat_append_byte {w : Nat} (x : BitVec w) (b : Byte) : (x ++ b).toNat = b.toNat + x.toNat * 2 ^ 8 := by
  rw [BitVec.toNat_append, Nat.shiftLeft_eq, Nat.mul_comm, ← Nat.two_pow_add_eq_or_of_lt b.isLt, Nat.add_comm,
    Nat.mul_comm]

theorem ofLE16_toNat (b0 b1 : Byte) : (ofLE16 b0 b1).toNat = b0.toNat + b1.toNat * 2 ^ 8 :=
  toNat_append_byte b1 b0

theorem ofLE32_toNat (b0 b1 b2 b3 : Byte) :
    (ofLE32 b0 b1 b2 b3).toNat = b0.toNat + b1.toNat * 2 ^ 8 + b2.toNat * 2 ^ 16 + b3.toNat * 2 ^ 24 := by
  rw [ofLE32, toNat_append_byte, toNat_append_byte, toNat_append_byte]
  omega

@[simp] theorem field16_cons (b0 b1 : Byte) (bs : List Byte) : field16 (b0 :: b1 :: bs) = some (ofLE16 b0 b1, bs) := rfl

@[simp] theorem field32_cons (b0 b1 b2 b3 : Byte) (bs : List Byte) :
    field32 (b0 :: b1 :: b2 :: b3 :: bs) = some (ofLE32 b0 b1 b2 b3, bs) := rfl

/-- A buffer operand is its length field and then that many bytes, in their order. -/
theorem fieldBuffer_cons_iff (n0 n1 n2 n3 : Byte) (bs data rest : List Byte) :
    fieldBuffer (n0 :: n1 :: n2 :: n3 :: bs) = some (data, rest) ↔
      (ofLE32 n0 n1 n2 n3).toNat = data.length ∧ bs = data ++ rest := by
  simp only [fieldBuffer, field32_cons, Option.bind_some]
  constructor
  · intro h
    obtain ⟨hbs, hlen⟩ := takeBytes_some _ _ _ _ h
    exact ⟨hlen.symm, hbs⟩
  · rintro ⟨hlen, rfl⟩
    rw [hlen, takeBytes_append]

/-- Settles O5: a field's value is the sum of its bytes, and a result's bytes make up the result as a field. -/
theorem multiByteFieldsAreLittleEndian : Obligations.MultiByteFieldsAreLittleEndian := by
  refine ⟨ofLE16_toNat, ofLE32_toNat, ?_, ?_, ?_⟩
  · intro v
    exact ⟨_, _, rfl, by rw [← ofLE16_toNat, ofLE16_bytes]⟩
  · intro v
    exact ⟨_, _, _, _, rfl, by rw [← ofLE32_toNat, ofLE32_bytes]⟩
  · intro n0 n1 n2 n3 bytes data rest h
    obtain ⟨hlen, hbytes⟩ := (fieldBuffer_cons_iff n0 n1 n2 n3 bytes data rest).1 h
    exact ⟨by rw [← hlen, ofLE32_toNat], hbytes⟩

/-! ## Field layouts (R65) -/

@[simp] theorem opcodeOf_code (o : Opcode) : opcodeOf o.code = some o := by
  cases o <;> rfl

/-- Operands that have arrived behind the opcode byte of their operation are a command. -/
theorem decode_code_cons {o : Opcode} {bs rest : List Byte} {i : Instr} (h : decodeOperands o bs = some (i, rest)) :
    decode (o.code :: bs) = .command i rest :=
  (decode_command_iff _ _ _).2 ⟨o.code, bs, o, rfl, opcodeOf_code o, h⟩

/-- Settles O4: behind each opcode byte the operands are read field by field, and a buffer is as long as its length field says. -/
theorem fieldLayoutOfEveryFrame : Obligations.FieldLayoutOfEveryFrame := by
  have buffer {n0 n1 n2 n3 : Byte} {data : List Byte} (rest : List Byte) (h : (ofLE32 n0 n1 n2 n3).toNat = data.length) :
      fieldBuffer (n0 :: n1 :: n2 :: n3 :: (data ++ rest)) = some (data, rest) :=
    (fieldBuffer_cons_iff n0 n1 n2 n3 _ data rest).2 ⟨h, rfl⟩
  refine ⟨?crc16Entry, ?crc16Byte, ?crc16Buf, ?crc16Calc, ?crc8Byte, ?crc8Calc, ?popcnt32, ?popcnt16, ?rev8⟩
  case crc16Entry => exact fun _ _ _ _ _ _ => decode_code_cons (o := .crc16Entry) rfl
  case crc16Byte => exact fun _ _ _ _ _ _ _ _ => decode_code_cons (o := .crc16Byte) rfl
  case crc16Buf =>
    intro s0 s1 s2 s3 a0 a1 n0 n1 n2 n3 data rest h
    exact decode_code_cons (o := .crc16Buf) (by simp [decodeOperands, buffer rest h])
  case crc16Calc =>
    intro s0 s1 s2 s3 n0 n1 n2 n3 data rest h
    exact decode_code_cons (o := .crc16Calc) (by simp [decodeOperands, buffer rest h])
  case crc8Byte => exact fun _ _ _ _ => decode_code_cons (o := .crc8Byte) rfl
  case crc8Calc =>
    intro poly init xorOut n0 n1 n2 n3 data rest h
    exact decode_code_cons (o := .crc8Calc) (by simp [decodeOperands, buffer rest h])
  case popcnt32 => exact fun _ _ _ _ _ => decode_code_cons (o := .popcnt32) rfl
  case popcnt16 => exact fun _ _ _ _ _ => decode_code_cons (o := .popcnt16) rfl
  case rev8 => exact fun _ _ => decode_code_cons (o := .rev8) rfl

/-! ## Every operand value is legal (R67) -/

/-- A field is read wherever its bytes have arrived, whatever they are. -/
theorem field8_drop (bs : List Byte) (k : Nat) (h : k + 1 ≤ bs.length) :
    ∃ v, field8 (bs.drop k) = some (v, bs.drop (k + 1)) := by
  rw [List.drop_eq_getElem_cons h]
  exact ⟨_, rfl⟩

theorem field16_drop (bs : List Byte) (k : Nat) (h : k + 2 ≤ bs.length) :
    ∃ v, field16 (bs.drop k) = some (v, bs.drop (k + 2)) := by
  rw [List.drop_eq_getElem_cons (show k < bs.length by omega), List.drop_eq_getElem_cons h]
  exact ⟨_, rfl⟩

theorem field32_drop (bs : List Byte) (k : Nat) (h : k + 4 ≤ bs.length) :
    ∃ v, field32 (bs.drop k) = some (v, bs.drop (k + 4)) := by
  rw [List.drop_eq_getElem_cons (show k < bs.length by omega),
    List.drop_eq_getElem_cons (show k + 1 < bs.length by omega),
    List.drop_eq_getElem_cons (show k + 2 < bs.length by omega), List.drop_eq_getElem_cons h]
  exact ⟨_, rfl⟩

/-- A field that was read had arrived, and what follows it is left. -/
theorem field32_drop_some {bs rest : List Byte} {k : Nat} {v : Word} (h : field32 (bs.drop k) = some (v, rest)) :
    bs.length = k + 4 + rest.length ∧ rest = bs.drop (k + 4) := by
  have hbytes : bs.drop k = bytesLE32 v ++ rest := field32_some _ _ _ h
  have hlength := congrArg List.length hbytes
  simp only [List.length_drop, List.length_append, bytesLE32, List.length_cons, List.length_nil] at hlength
  exact ⟨by omega, by rw [← List.drop_drop, hbytes]; rfl⟩

/-- Where a frame has all the bytes its length field asks for, its buffer is read, and what follows the frame is left. `k` operand
bytes stand between the opcode and the buffer, so the fixed header has `k + 5` bytes. -/
theorem fieldBuffer_of_bufferFrameLength {op : Byte} {bs : List Byte} {k n : Nat}
    (h : bufferFrameLength (k + 5) (op :: bs) = some n) (hn : n ≤ (op :: bs).length) :
    k + 5 ≤ n ∧ ∃ data, fieldBuffer (bs.drop k) = some (data, (op :: bs).drop n) := by
  obtain ⟨⟨len, rest⟩, hfield, heq⟩ := Option.map_eq_some_iff.1 h
  obtain rfl : k + 5 + len.toNat = n := heq
  obtain ⟨hlength, hrest⟩ := field32_drop_some (k := k) hfield
  refine ⟨by omega, rest.take len.toNat, Option.bind_eq_some_iff.2 ⟨(len, rest), hfield, ?_⟩⟩
  have harrived : len.toNat ≤ rest.length := by rw [List.length_cons] at hn; omega
  have hleft : rest.drop len.toNat = (op :: bs).drop (k + 5 + len.toNat) := by
    rw [hrest, List.drop_drop, ← List.drop_succ_cons (a := op)]
    congr 1
    omega
  change takeBytes len.toNat rest = _
  rw [takeBytes, if_pos harrived, hleft]

/-- The operands of a frame that has all its bytes are read, whatever their values, and what follows the frame is left. -/
theorem decodeOperands_of_frameLength {op : Byte} {o : Opcode} {bs : List Byte} {n : Nat} (ho : opcodeOf op = some o)
    (hlen : frameLength (op :: bs) = some n) (hn : n ≤ (op :: bs).length) :
    ∃ i, decodeOperands o bs = some (i, (op :: bs).drop n) := by
  have hbs : n ≤ bs.length + 1 := hn
  simp only [frameLength, ho] at hlen
  cases o <;> simp only [decodeOperands, Option.bind_eq_some_iff, Prod.exists]
  case crc16Entry =>
    cases hlen
    obtain ⟨index, hindex⟩ := field8_drop bs 0 (by omega)
    obtain ⟨sel, hsel⟩ := field32_drop bs 1 (by omega)
    exact ⟨_, _, _, hindex, _, _, hsel, rfl⟩
  case crc16Byte =>
    cases hlen
    obtain ⟨sel, hsel⟩ := field32_drop bs 0 (by omega)
    obtain ⟨byte, hbyte⟩ := field8_drop bs 4 (by omega)
    obtain ⟨acc, hacc⟩ := field16_drop bs 5 (by omega)
    exact ⟨_, _, _, hsel, _, _, hbyte, _, _, hacc, rfl⟩
  case crc16Buf =>
    obtain ⟨hheader, data, hdata⟩ := fieldBuffer_of_bufferFrameLength (k := 6) hlen hn
    obtain ⟨sel, hsel⟩ := field32_drop bs 0 (by omega)
    obtain ⟨acc, hacc⟩ := field16_drop bs 4 (by omega)
    exact ⟨_, _, _, hsel, _, _, hacc, _, _, hdata, rfl⟩
  case crc16Calc =>
    obtain ⟨hheader, data, hdata⟩ := fieldBuffer_of_bufferFrameLength (k := 4) hlen hn
    obtain ⟨sel, hsel⟩ := field32_drop bs 0 (by omega)
    exact ⟨_, _, _, hsel, _, _, hdata, rfl⟩
  case crc8Byte =>
    cases hlen
    obtain ⟨poly, hpoly⟩ := field8_drop bs 0 (by omega)
    obtain ⟨byte, hbyte⟩ := field8_drop bs 1 (by omega)
    obtain ⟨acc, hacc⟩ := field8_drop bs 2 (by omega)
    exact ⟨_, _, _, hpoly, _, _, hbyte, _, _, hacc, rfl⟩
  case crc8Calc =>
    obtain ⟨hheader, data, hdata⟩ := fieldBuffer_of_bufferFrameLength (k := 3) hlen hn
    obtain ⟨poly, hpoly⟩ := field8_drop bs 0 (by omega)
    obtain ⟨init, hinit⟩ := field8_drop bs 1 (by omega)
    obtain ⟨xorOut, hxorOut⟩ := field8_drop bs 2 (by omega)
    exact ⟨_, _, _, hpoly, _, _, hinit, _, _, hxorOut, _, _, hdata, rfl⟩
  case popcnt32 | popcnt16 =>
    cases hlen
    obtain ⟨value, hvalue⟩ := field32_drop bs 0 (by omega)
    exact ⟨_, _, _, hvalue, rfl⟩
  case rev8 =>
    cases hlen
    obtain ⟨value, hvalue⟩ := field8_drop bs 0 (by omega)
    exact ⟨_, _, _, hvalue, rfl⟩

/-- Settles O7: a defined opcode names an operation, and its operands are read at every value once the frame is whole. -/
theorem noOperandValueIsIllegal : Obligations.NoOperandValueIsIllegal := by
  intro op bytes n hop hlen hn
  obtain ⟨o, ho⟩ := Option.ne_none_iff_exists'.1 hop
  obtain ⟨i, hi⟩ := decodeOperands_of_frameLength ho hlen hn
  exact ⟨i, _, (decode_command_iff _ _ _).2 ⟨op, bytes, o, rfl, ho, hi⟩, rfl⟩

/-! ## The response frame (R63) -/

/-- Every command's result has the width R63 gives it. -/
theorem resultOf_bytes_length (i : Instr) : (resultOf i).bytes.length = resultBytes i := by
  cases i <;> rfl

/-- A response frame is the status OK and a result, or the status ILLEGAL alone. -/
theorem Response.frame_cases (r : Response) :
    (∃ v, r = .ok v ∧ r.frame = 0x00#8 :: v.bytes) ∨ (r = .illegal ∧ r.frame = [0x01#8]) := by
  cases r with
  | ok v => exact .inl ⟨v, rfl, rfl⟩
  | illegal => exact .inr ⟨rfl, rfl⟩

/-- Settles O32: the one response of a command carries its result, on the port being served (O21). -/
theorem responseFrameOfEveryCommand : Obligations.ResponseFrameOfEveryCommand := by
  refine ⟨?_, fun _ => rfl, fun _ => rfl, fun _ => rfl, Response.frame_cases⟩
  intro i s hs
  obtain ⟨t, hexec, hdelivered⟩ := resultDependsOnTheOperandsAlone i s hs
  exact ⟨t, .ok (resultOf i), hexec, by rw [hdelivered.sent], rfl, resultOf_bytes_length i⟩

/-! ## Pseudo-instructions (R71) -/

/-- A number that is the value of a bit string fits that string's width, and is that string there. -/
@[simp] theorem fit_toNat {w : Nat} (v : BitVec w) : fit w v.toNat = some v := by
  rw [fit, if_pos v.isLt, BitVec.ofNat_toNat, BitVec.setWidth_eq]

theorem NumArg.fit_of_value {w : Nat} {env : HostValues} {a : NumArg} {v : BitVec w} (h : a.value env = some v.toNat) :
    a.fit w env = some v := by
  rw [NumArg.fit, h, Option.bind_some, fit_toNat]

/-- The named constants and the literals of the expansions fit their fields. -/
theorem NumArg.fit_crc16Modbus (env : HostValues) : NumArg.crc16Modbus.fit 32 env = some Config.modbusSelector :=
  NumArg.fit_of_value rfl

theorem NumArg.fit_crc16Dnp (env : HostValues) : NumArg.crc16Dnp.fit 32 env = some Config.dnpSelector :=
  NumArg.fit_of_value rfl

theorem NumArg.fit_lit_toNat {w : Nat} (env : HostValues) (v : BitVec w) : (NumArg.lit v.toNat).fit w env = some v :=
  NumArg.fit_of_value rfl

/-- `crc8.cont` is the chain of its commands over its data bytes. -/
theorem Asm.assemble_cont {env : HostValues} {poly acc : NumArg} {p a : Byte} (data : DataArg)
    (hp : poly.value env = some p.toNat) (ha : acc.value env = some a.toNat) :
    (Asm.cont poly data acc).assemble env = data.bytes.map (contCommands p · a) := by
  simp only [Asm.assemble, NumArg.fit_of_value hp, NumArg.fit_of_value ha, Option.bind_some, Option.map_some]
  cases data.bytes <;> rfl

/-- The value of `crc8.cont` is what is left after all its data bytes: the last result, or over no byte the given accumulator. -/
theorem Asm.hostValue_cont {env : HostValues} {poly acc : NumArg} {p a : Byte} {data : DataArg} {d : List Byte}
    (hp : poly.value env = some p.toNat) (ha : acc.value env = some a.toNat) (hd : data.bytes = some d) :
    (Asm.cont poly data acc).hostValue env = some (fold8 p d a).toNat := by
  rw [Asm.hostValue, Asm.assemble_cont data hp ha, hd, Option.map_some, Option.bind_some]
  obtain ⟨rfl, hlast⟩ | ⟨i, hlast, hi⟩ := contCommands_getLast? p d a
  · simp only [hlast, ha]
    rfl
  · simp only [hlast, hi]
    rfl

/-- The command for byte `i` starts from the accumulator that the bytes before it leave. -/
theorem contCommands_getElem? (poly : Byte) (bs : List Byte) (acc : Byte) (i : Nat) :
    (contCommands poly bs acc)[i]? = bs[i]?.map fun b => Instr.crc8Byte poly b (fold8 poly (bs.take i) acc) := by
  induction bs generalizing acc i with
  | nil => rfl
  | cons b bs ih =>
    cases i with
    | zero => rfl
    | succ i => exact ih (continueByte8 poly b acc) i

/-- Over at least one byte, the last result of `crc8.cont` is the accumulator that all the bytes leave. -/
theorem resultOf_contCommands_getLast? (poly : Byte) (bs : List Byte) (acc : Byte) (h : bs ≠ []) :
    (contCommands poly bs acc).getLast?.map resultOf = some (.byte (fold8 poly bs acc)) := by
  obtain ⟨hnil, -⟩ | ⟨i, hlast, hi⟩ := contCommands_getLast? poly bs acc
  · exact absurd hnil h
  · rw [hlast, Option.map_some, hi]

/-- Settles O58: constants and literals fit their fields, so the expansions assemble alike; `crc8.cont` is its chain of
commands, by induction on the bytes. -/
theorem pseudoInstructionsExpand : Obligations.PseudoInstructionsExpand := by
  refine ⟨fun _ => ⟨rfl, rfl⟩, ?modbus, ?dnp, ?smbus, ?cont, ?contValue, contCommands_getElem?, fun _ _ _ _ => rfl,
    fun _ _ => rfl, ?contOfNoByte, resultOf_contCommands_getLast?⟩
  case modbus =>
    intro env data
    rw [Asm.assemble, Asm.assemble, NumArg.fit_crc16Modbus, Option.bind_some]
  case dnp =>
    intro env data
    rw [Asm.assemble, Asm.assemble, NumArg.fit_crc16Dnp, Option.bind_some]
  case smbus =>
    intro env data
    have hpoly : (NumArg.lit 0x07).fit 8 env = some 0x07#8 := NumArg.fit_lit_toNat env 0x07#8
    have hzero : (NumArg.lit 0x00).fit 8 env = some 0x00#8 := NumArg.fit_lit_toNat env 0x00#8
    simp only [Asm.assemble, hpoly, hzero, Option.bind_some]
  case cont => exact fun env poly acc p a values hp ha => Asm.assemble_cont (.hex values) hp ha
  case contValue => exact fun env poly acc p a values d hp ha hd => Asm.hostValue_cont hp ha hd
  case contOfNoByte =>
    intro env poly acc
    exact Asm.hostValue_cont (env := env) (poly := .lit poly.toNat) (acc := .lit acc.toNat) rfl rfl
      (show (DataArg.hex []).bytes = some [] by decide)

end Sys2Proof.Machine
end

section
/-! SUPPORT. Proofs about 40_crc16.md: the DNP3 selector and its transforms (R86, R87), the buffer update (R88), the four CRC16
commands (R82, R84, R89, R90), and that the table strategy shows in no result (R94). -/

namespace Sys2Proof.Machine

/-! ## The DNP3 transforms (R87) -/

/-- The bytes exchanged, bit by bit: each bit is the one eight places on, modulo 16. -/
theorem getLsbD_swap16 (x : Half) {i : Nat} (hi : i < 16) : (swap16 x).getLsbD i = x.getLsbD ((i + 8) % 16) := by
  simp only [swap16, BitVec.getLsbD_or, BitVec.getLsbD_shiftLeft, BitVec.getLsbD_setWidth, BitVec.getLsbD_extractLsb', hi,
    decide_true, Bool.true_and]
  by_cases hlow : i < 8
  · simp [hlow, show (i + 8) % 16 = 8 + i by omega]
  · simp [hlow, show (i + 8) % 16 = i - 8 by omega, show i - 8 < 8 by omega, show i - 8 < 16 by omega]

theorem getLsbD_not16 (x : Half) {i : Nat} (hi : i < 16) : (not16 x).getLsbD i = !x.getLsbD i := by
  rw [not16, show (0xFFFF#16 : Half) = BitVec.allOnes 16 from rfl, BitVec.xor_allOnes, BitVec.getLsbD_not]
  simp [hi]

@[simp] theorem swap16_swap16 (x : Half) : swap16 (swap16 x) = x := by
  refine BitVec.eq_of_getLsbD_eq fun i hi => ?_
  rw [getLsbD_swap16 _ hi, getLsbD_swap16 _ (Nat.mod_lt _ (by decide))]
  congr 1
  omega

@[simp] theorem not16_not16 (x : Half) : not16 (not16 x) = x := by
  rw [not16, not16, BitVec.xor_assoc, BitVec.xor_self, BitVec.xor_zero]

/-- Exchanging the bytes and complementing every bit commute. -/
theorem swap16_not16 (x : Half) : swap16 (not16 x) = not16 (swap16 x) := by
  refine BitVec.eq_of_getLsbD_eq fun i hi => ?_
  rw [getLsbD_swap16 _ hi, getLsbD_not16 _ (Nat.mod_lt _ (by decide)), getLsbD_not16 _ hi, getLsbD_swap16 _ hi]

@[simp] theorem dnpPre_dnpPost (x : Half) : dnpPre (dnpPost x) = x := by
  rw [dnpPre, dnpPost, swap16_swap16, not16_not16]

@[simp] theorem dnpPost_dnpPre (x : Half) : dnpPost (dnpPre x) = x := by
  rw [dnpPre, dnpPost, not16_not16, swap16_swap16]

theorem dnpPre_eq_dnpPost : dnpPre = dnpPost :=
  funext fun x => (swap16_not16 x).symm

/-- Settles O36: exchanging and complementing are each their own inverse, and they commute. -/
theorem dnpTransformsUndoEachOther : Obligations.DnpTransformsUndoEachOther :=
  ⟨fun _ => rfl, fun _ => rfl, dnpPre_dnpPost, dnpPost_dnpPre, dnpPre_eq_dnpPost⟩

/-! ## The DNP3 selector (R86) -/

theorem isDNP_iff (sel : Word) : isDNP sel = true ↔ sel = Config.dnpSelector :=
  beq_iff_eq

theorem isDNP_eq_false_iff (sel : Word) : isDNP sel = false ↔ sel ≠ Config.dnpSelector :=
  beq_eq_false_iff_ne

@[simp] theorem isDNP_dnpSelector : isDNP Config.dnpSelector = true :=
  (isDNP_iff _).2 rfl

/-- A selector with another polynomial than DNP3's is not DNP3. -/
theorem isDNP_of_polyOf_ne {sel : Word} (h : polyOf sel ≠ polyOf Config.dnpSelector) : isDNP sel = false :=
  (isDNP_eq_false_iff sel).2 (mt (congrArg polyOf) h)

/-- A selector with another initial value than DNP3's is not DNP3, whatever its polynomial. -/
theorem isDNP_of_initialValueOf_ne {sel : Word} (h : initialValueOf sel ≠ initialValueOf Config.dnpSelector) :
    isDNP sel = false :=
  (isDNP_eq_false_iff sel).2 (mt (congrArg initialValueOf) h)

/-- A selector packed with polynomial 0 is not DNP3. -/
@[simp] theorem isDNP_selectorOf_zero (v : Half) : isDNP (selectorOf v 0x0000#16) = false :=
  isDNP_of_polyOf_ne (by rw [polyOf_selectorOf]; decide)

/-- Settles O38: `isDNP` compares all 32 bits, so also the initial value. -/
theorem onlyTheDnpSelectorIsDnp : Obligations.OnlyTheDnpSelectorIsDnp :=
  ⟨isDNP_iff, fun initial h => isDNP_of_initialValueOf_ne (by rwa [initialValueOf_selectorOf])⟩

/-! ## The buffer update (R88) -/

theorem bufferStart_of_not_dnp {sel : Word} (h : isDNP sel = false) (acc : Half) : bufferStart sel acc = acc := by
  simp [bufferStart, h]

theorem bufferStart_of_dnp {sel : Word} (h : isDNP sel = true) {acc : Half} (hacc : acc ≠ 0x0000#16) :
    bufferStart sel acc = dnpPre acc := by
  simp [bufferStart, h, hacc]

@[simp] theorem bufferStart_zero (sel : Word) : bufferStart sel 0x0000#16 = 0x0000#16 := by
  simp [bufferStart]

theorem bufferEnd_of_not_dnp {sel : Word} (h : isDNP sel = false) (a : Half) : bufferEnd sel a = a := by
  simp [bufferEnd, h]

theorem bufferEnd_of_dnp {sel : Word} (h : isDNP sel = true) (a : Half) : bufferEnd sel a = dnpPost a := by
  simp [bufferEnd, h]

/-- The buffer update is the fold of the byte update between the accumulator's two transforms. -/
theorem continueBuffer16_eq (sel : Word) (data : List Byte) (acc : Half) : continueBuffer16 sel data acc =
    bufferEnd sel (data.foldl (fun a b => continueByte16 sel b a) (bufferStart sel acc)) := rfl

theorem continueBuffer16_of_not_dnp {sel : Word} (h : isDNP sel = false) (data : List Byte) (acc : Half) :
    continueBuffer16 sel data acc = data.foldl (fun a b => continueByte16 sel b a) acc := by
  rw [continueBuffer16_eq, bufferStart_of_not_dnp h, bufferEnd_of_not_dnp h]

theorem continueBuffer16_of_dnp {sel : Word} (h : isDNP sel = true) (data : List Byte) {acc : Half}
    (hacc : acc ≠ 0x0000#16) : continueBuffer16 sel data acc =
      dnpPost (data.foldl (fun a b => continueByte16 sel b a) (dnpPre acc)) := by
  rw [continueBuffer16_eq, bufferStart_of_dnp h hacc, bufferEnd_of_dnp h]

theorem continueBuffer16_of_dnp_zero {sel : Word} (h : isDNP sel = true) (data : List Byte) :
    continueBuffer16 sel data 0x0000#16 = dnpPost (data.foldl (fun a b => continueByte16 sel b a) 0x0000#16) := by
  rw [continueBuffer16_eq, bufferStart_zero, bufferEnd_of_dnp h]

/-- Settles O39: the case split on the selector and on the zero test of the accumulator. -/
theorem bufferUpdateOfEverySelector : Obligations.BufferUpdateOfEverySelector :=
  ⟨fun _ data acc h => continueBuffer16_of_not_dnp h data acc, fun _ data _ h => continueBuffer16_of_dnp h data,
    fun _ data h => continueBuffer16_of_dnp_zero h data⟩

/-! ## CRC16.ENTRY (R82) -/

/-- With entry 0 and no index bit left, the rounds of R80 change nothing. -/
theorem tableLoop_zero_index (p : Half) (k : Nat) : tableLoop p k 0x0000#16 0x00#8 = 0x0000#16 := by
  induction k with
  | zero => rfl
  | succ k ih => exact ih

/-- With polynomial 0 a round of R80 only shifts, so entry 0 stays. -/
theorem tableLoop_zero_poly (k : Nat) (i : Byte) : tableLoop 0x0000#16 k 0x0000#16 i = 0x0000#16 := by
  induction k generalizing i with
  | zero => rfl
  | succ k ih => rw [tableLoop, BitVec.zero_ushiftRight, BitVec.xor_zero, ite_self, ih]

@[simp] theorem tableEntry_zero (sel : Word) : tableEntry 0x00#8 sel = 0x0000#16 :=
  tableLoop_zero_index (polyOf sel) 8

/-- Index 0x80 has its one bit at the bottom in the eighth round alone, which adds the polynomial to the entry 0. -/
theorem tableEntry_top_bit (sel : Word) : tableEntry 0x80#8 sel = polyOf sel := by
  simp [tableEntry, polyEntry, tableLoop, zext16]

/-- Only the polynomial of a selector matters to its table. -/
theorem tableEntry_selectorOf (index : Byte) (v p : Half) : tableEntry index (selectorOf v p) = polyEntry p index := by
  rw [tableEntry, polyOf_selectorOf]

@[simp] theorem tableEntry_selectorOf_zero (index : Byte) (v : Half) :
    tableEntry index (selectorOf v 0x0000#16) = 0x0000#16 := by
  rw [tableEntry_selectorOf, polyEntry, tableLoop_zero_poly]

/-- Settles O22: the result is O21's; the corner cases follow the rounds of R80. -/
theorem crc16EntryCommand : Obligations.Crc16EntryCommand := by
  refine ⟨fun _ _ => rfl, ?result, ?indices, fun index v => tableEntry_selectorOf_zero index v, ?initialValue, ?knownAnswer⟩
  case result => exact fun s index sel => resultDependsOnTheOperandsAlone (.crc16Entry index sel) s
  case indices => exact fun sel => ⟨tableEntry_zero sel, tableEntry_top_bit sel⟩
  case initialValue =>
    intro index v v' p
    rw [tableEntry_selectorOf, tableEntry_selectorOf]
  case knownAnswer => decide

/-! ## CRC16.BYTE (R83, R84) -/

/-- The byte update by the table (R83); the selector matters only through its table. -/
theorem continueByte16_eq (sel : Word) (byte : Byte) (acc : Half) : continueByte16 sel byte acc =
    (acc >>> 8) ^^^ tableEntry ((acc ^^^ byte.setWidth 16).extractLsb' 0 8) sel := rfl

/-- The byte equal to the accumulator's low byte takes entry 0, so the accumulator is only shifted. -/
theorem continueByte16_lowByte (sel : Word) (acc : Half) :
    continueByte16 sel (acc.extractLsb' 0 8) acc = acc >>> 8 := by
  have hindex : (acc ^^^ (acc.extractLsb' 0 8).setWidth 16).extractLsb' 0 8 = 0x00#8 := by
    rw [BitVec.extractLsb'_xor]
    refine BitVec.eq_of_getLsbD_eq fun i hi => ?_
    simp [hi, show i < 16 by omega]
  rw [continueByte16_eq, hindex, tableEntry_zero, BitVec.xor_zero]

/-- Polynomial 0 has a table of zeros, so the byte is lost and the accumulator only shifted. -/
@[simp] theorem continueByte16_selectorOf_zero (v : Half) (byte : Byte) (acc : Half) :
    continueByte16 (selectorOf v 0x0000#16) byte acc = acc >>> 8 := by
  rw [continueByte16_eq, tableEntry_selectorOf_zero, BitVec.xor_zero]

/-- Settles O23: the result is O21's, which is R83's expression; the corner cases are those of the entry it reads. -/
theorem crc16ByteCommand : Obligations.Crc16ByteCommand := by
  refine ⟨fun _ _ _ => rfl, ?result, fun sel => continueByte16_lowByte sel 0x0000#16, continueByte16_selectorOf_zero,
    continueByte16_lowByte, ?knownAnswer⟩
  case result =>
    intro s sel byte acc hs
    rw [← continueByte16_eq]
    exact resultDependsOnTheOperandsAlone (.crc16Byte sel byte acc) s hs
  case knownAnswer => decide

/-! ## CRC16.BUF (R89) -/

/-- An empty buffer returns any accumulator but 0 as it was: DNP3's two transforms undo each other. -/
theorem continueBuffer16_dnp_nil {acc : Half} (hacc : acc ≠ 0x0000#16) :
    continueBuffer16 Config.dnpSelector [] acc = acc := by
  rw [continueBuffer16_of_dnp isDNP_dnpSelector [] hacc, List.foldl_nil, dnpPost_dnpPre]

/-- DNP3 resumes from 0xFFFF as from 0: the pre-transform of the one is the other. -/
theorem continueBuffer16_dnp_ones (data : List Byte) :
    continueBuffer16 Config.dnpSelector data 0xFFFF#16 = continueBuffer16 Config.dnpSelector data 0x0000#16 := by
  have hstart : bufferStart Config.dnpSelector 0xFFFF#16 = bufferStart Config.dnpSelector 0x0000#16 := by decide
  rw [continueBuffer16_eq, hstart, ← continueBuffer16_eq]

/-- Settles O24: the result is O21's; the corner cases are R88's cases. -/
theorem crc16BufCommand : Obligations.Crc16BufCommand := by
  refine ⟨?encoding, ?result, fun _ acc h => continueBuffer16_of_not_dnp h [] acc, fun _ => continueBuffer16_dnp_nil,
    by decide, ?fromZero, continueBuffer16_dnp_ones, fun _ data h => continueBuffer16_of_not_dnp h data _, by decide⟩
  case encoding =>
    intro sel data acc
    rw [encode, bytesOfBuffer, ← List.append_assoc]
  case result => exact fun s sel data acc => resultDependsOnTheOperandsAlone (.crc16Buf sel data acc) s
  case fromZero =>
    intro data
    rw [calculate16, show initialValueOf Config.dnpSelector = 0x0000#16 from rfl]

/-! ## CRC16.CALC (R90) -/

/-- For a selector that is not DNP3 a one-shot CRC is the fold from the selector's initial value. -/
theorem calculate16_of_not_dnp {sel : Word} (h : isDNP sel = false) (data : List Byte) :
    calculate16 sel data = data.foldl (fun a b => continueByte16 sel b a) (initialValueOf sel) :=
  continueBuffer16_of_not_dnp h data _

/-- With polynomial 0 each byte shifts the initial value down by a byte. -/
theorem calculate16_selectorOf_zero (v : Half) (data : List Byte) :
    calculate16 (selectorOf v 0x0000#16) data = data.foldl (fun (a : Half) _ => a >>> 8) v := by
  simp only [calculate16_of_not_dnp (isDNP_selectorOf_zero v), continueByte16_selectorOf_zero, initialValueOf_selectorOf]

/-- Two shifts by a byte leave nothing of 16 bits. -/
theorem half_shiftRight_twice (v : Half) : v >>> 8 >>> 8 = 0x0000#16 := by
  rw [← BitVec.shiftRight_add]
  exact BitVec.ushiftRight_eq_zero (by decide)

/-- An accumulator of 0 stays 0 under shifts, so whatever follows does not matter. -/
theorem foldl_shiftRight_zero (data : List Byte) : data.foldl (fun (a : Half) _ => a >>> 8) 0x0000#16 = 0x0000#16 :=
  List.foldl_fixed' (fun (_ : Byte) => BitVec.zero_ushiftRight) data

/-- Settles O25: the result is O21's; the corner cases of polynomial 0 are the shifts of the initial value. -/
theorem crc16CalcCommand : Obligations.Crc16CalcCommand := by
  refine ⟨?encoding, ?result, fun _ h => calculate16_of_not_dnp h [], by decide, ?zeroSelector,
    fun v b => calculate16_selectorOf_zero v [b], ?zeroPoly, by decide⟩
  case encoding =>
    intro sel data
    rw [encode, bytesOfBuffer, List.append_assoc]
  case result => exact fun s sel data => resultDependsOnTheOperandsAlone (.crc16Calc sel data) s
  case zeroSelector =>
    intro data
    rw [show 0x00000000#32 = selectorOf 0x0000#16 0x0000#16 from rfl, calculate16_selectorOf_zero, foldl_shiftRight_zero]
  case zeroPoly =>
    intro v b b' data
    rw [calculate16_selectorOf_zero, List.foldl_cons, List.foldl_cons, half_shiftRight_twice, foldl_shiftRight_zero]

/-! ## The table strategy (R94) -/

/-- The same result delivered over any two table caches leaves states that still differ in hidden state only. -/
theorem SameButTables.deliver {s t : State} (h : SameButTables s t) (c d : List CachedTable) (v : Result) :
    SameButTables (State.deliver { s with cache := c } v) (State.deliver { t with cache := d } v) where
  ports := by simp [State.deliver_eq, State.port, h.ports, h.serving]
  serving := h.serving
  picks := h.picks

/-- A command performed in two states that differ in hidden state only sends the same response: over right caches its result is
`resultOf`'s in both. -/
theorem SameButTables.exec_next {s t : State} (h : SameButTables s t) (i : Instr) (hs : cacheWf s.cache = true)
    (ht : cacheWf t.cache = true) :
    ∃ s' t', exec i s = .next s' ∧ exec i t = .next t' ∧ SameButTables s' t' := by
  obtain ⟨c, v, hexec, -, hv⟩ := exec_shape i s
  obtain ⟨d, w, hexec', -, hw⟩ := exec_shape i t
  obtain rfl := hv hs
  obtain rfl := hw ht
  exact ⟨_, _, hexec, hexec', h.deliver c d _⟩

/-- Under a cache, the entry a command reads has been stored, with R80's value, before it is read. -/
theorem State.withTable_stored (s : State) (sel : Word) (index : Byte) (h : cacheWf s.cache = true)
    (hs : s.strategy = .cached) :
    (cachedEntries (polyOf sel) (s.withTable sel).cache)[index.toNat]? = some (tableEntry index sel) := by
  rw [(s.withTable_tables sel h).completed hs]
  exact fullTable_byte (polyOf sel) index

/-- Settles O42: results rest on the operands alone, and a table made ready is R80's. -/
theorem tableStrategyNeverShowsInAResult : Obligations.TableStrategyNeverShowsInAResult := by
  refine ⟨fun i s t hs ht h => h.exec_next i hs ht, fun s sel index h hs => ⟨s.withTable_stored sel index h hs, ?_⟩⟩
  exact State.entry_eq _ sel (s.cacheWf_withTable sel h) index

end Sys2Proof.Machine
end

section
/-! SUPPORT. Proofs about 41_crc8.md: the loop of R110 where it XORs no polynomial in, and the two CRC8 commands (R111, R112). -/

namespace Sys2Proof.Machine

/-- A command that only delivers a result completes, and its one response is all it changes; the table cache too is as it was. -/
theorem State.deliver_completes (s : State) (v : Result) :
    ∃ t, (Host.Outcome.next (s.deliver v) : Outcome) = .next t ∧ Delivered s t (.ok v) ∧ t.cache = s.cache :=
  ⟨_, rfl, s.deliver_delivered v, s.respond_cache (.ok v)⟩

/-! ## The byte update (R110) -/

/-- R110's test of the data byte yields that byte's own top bit. -/
theorem topBit_of_test (d : Byte) : (if d &&& 0x80#8 ≠ 0#8 then 0x80#8 else 0x00#8) = d &&& 0x80#8 := by
  rw [show (0x80#8 : Byte) = BitVec.twoPow 8 7 from rfl, BitVec.and_twoPow]
  cases d.getLsbD 7 <;> rfl

/-- With polynomial 0 the rounds of R110 only shift the accumulator. -/
theorem crc8Loop_zero_poly (k : Nat) (a d : Byte) : crc8Loop 0x00#8 k a d = a <<< k := by
  induction k generalizing a d with
  | zero => exact (BitVec.shiftLeft_zero a).symm
  | succ k ih => rw [crc8Loop, BitVec.xor_zero, ite_self, ih, ← BitVec.shiftLeft_add, Nat.add_comm]

/-- With the data byte equal to the accumulator they stay equal, so `temp` is 0 in every round of R110 and the rounds only shift. -/
theorem crc8Loop_self (poly : Byte) (k : Nat) (a : Byte) : crc8Loop poly k a a = a <<< k := by
  induction k generalizing a with
  | zero => exact (BitVec.shiftLeft_zero a).symm
  | succ k ih =>
    rw [crc8Loop, topBit_of_test, BitVec.xor_self, if_neg (not_not_intro rfl), ih, ← BitVec.shiftLeft_add, Nat.add_comm]

/-- Eight shifts leave nothing of a byte. -/
theorem byte_shiftLeft_eight (a : Byte) : a <<< 8 = 0x00#8 :=
  BitVec.shiftLeft_eq_zero (Nat.le_refl 8)

@[simp] theorem continueByte8_zero_poly (byte acc : Byte) : continueByte8 0x00#8 byte acc = 0x00#8 := by
  rw [continueByte8, crc8Loop_zero_poly, byte_shiftLeft_eight]

@[simp] theorem continueByte8_self (poly acc : Byte) : continueByte8 poly acc acc = 0x00#8 := by
  rw [continueByte8, crc8Loop_self, byte_shiftLeft_eight]

/-- Settles O27: the command only delivers its result; in the corner cases the loop only shifts, eight times. -/
theorem crc8ByteCommand : Obligations.Crc8ByteCommand := by
  refine ⟨fun _ _ _ => rfl, ?result, fun poly => continueByte8_self poly 0x00#8, continueByte8_zero_poly,
    continueByte8_self, by decide⟩
  case result => exact fun s poly byte acc => s.deliver_completes (.byte (continueByte8 poly byte acc))

/-! ## The one-shot CRC (R112) -/

/-- The one-shot CRC is the fold of the byte update from the initial value, with xorOut applied once. -/
theorem calculate8_eq (poly init xorOut : Byte) (data : List Byte) : calculate8 poly init xorOut data =
    data.foldl (fun a b => continueByte8 poly b a) init ^^^ xorOut := rfl

@[simp] theorem calculate8_nil (poly init xorOut : Byte) : calculate8 poly init xorOut [] = init ^^^ xorOut := rfl

/-- An xorOut of all ones complements what an xorOut of 0 gives. -/
theorem calculate8_ones (poly init : Byte) (data : List Byte) :
    calculate8 poly init 0xFF#8 data = ~~~ calculate8 poly init 0x00#8 data := by
  rw [calculate8_eq, calculate8_eq, BitVec.xor_zero, show (0xFF#8 : Byte) = BitVec.allOnes 8 from rfl, BitVec.xor_allOnes]

/-- With polynomial 0 the first byte leaves 0, and so does every byte after it: xorOut alone is left. -/
theorem calculate8_zero_poly_cons (init xorOut b : Byte) (data : List Byte) :
    calculate8 0x00#8 init xorOut (b :: data) = xorOut := by
  rw [calculate8_eq, List.foldl_cons, continueByte8_zero_poly,
    List.foldl_fixed' (f := fun a b => continueByte8 0x00#8 b a) fun b => continueByte8_zero_poly b 0x00#8, BitVec.zero_xor]

/-- Settles O28: the command only delivers the one-shot CRC; the corner cases are those of the XOR and of polynomial 0. -/
theorem crc8CalcCommand : Obligations.Crc8CalcCommand := by
  refine ⟨fun _ _ _ _ => rfl, ?result, calculate8_nil, ?initEqXorOut, calculate8_ones, calculate8_zero_poly_cons,
    by decide +kernel⟩
  case result => exact fun s poly init xorOut data => s.deliver_completes (.byte (calculate8 poly init xorOut data))
  case initEqXorOut =>
    intro poly init
    rw [calculate8_nil, BitVec.xor_self]

end Sys2Proof.Machine
end

section
/-! SUPPORT. Proofs about 42_bit_utilities.md: the population counts and their SWAR sequences (R120, R122), bit reversal
(R124) and the three commands (R121, R123, R125). -/

namespace Sys2Proof.Machine

/-! ## The population count -/

/-- R10's count, in the library's form. -/
theorem onesBelow_eq_cpopNatRec {w : Nat} (v : BitVec w) (k : Nat) : onesBelow v k = v.cpopNatRec k 0 := by
  induction k with
  | zero => rfl
  | succ k ih => rw [onesBelow, ih, BitVec.cpopNatRec_succ, BitVec.cpopNatRec_add]

theorem popcount_eq_toNat_cpop {w : Nat} (v : BitVec w) : popcount v = v.cpop.toNat := by
  rw [popcount, onesBelow_eq_cpopNatRec, BitVec.toNat_cpop]

/-- The count is at most the width. -/
theorem popcount_le {w : Nat} (v : BitVec w) : popcount v ≤ w :=
  popcount_eq_toNat_cpop v ▸ BitVec.toNat_cpop_le v

@[simp] theorem popcount_append {w u : Nat} (x : BitVec w) (y : BitVec u) :
    popcount (x ++ y) = popcount x + popcount y := by
  simp only [popcount_eq_toNat_cpop, BitVec.toNat_cpop_append]

@[simp] theorem popcount_zero (w : Nat) : popcount 0#w = 0 := by
  rw [popcount_eq_toNat_cpop, BitVec.cpop_zero, BitVec.toNat_zero]

/-- The count of the lowest `k` bits counts the positions below `k` whose bit is 1. -/
theorem onesBelow_eq_length_filter {w : Nat} (v : BitVec w) (k : Nat) :
    onesBelow v k = ((List.range k).filter fun i => v.getLsbD i).length := by
  induction k with
  | zero => rfl
  | succ k ih =>
    rw [onesBelow, ih, List.range_succ, List.filter_append, List.length_append]
    cases h : v.getLsbD k <;> simp [h]

theorem popCount32_toNat (v : Word) : (popCount32 v).toNat = popcount v := by
  have hle := popcount_le v
  rw [popCount32, BitVec.toNat_ofNat, Nat.mod_eq_of_lt (by omega)]

theorem popCount16_toNat (v : Word) : (popCount16 v).toNat = popcount (v.extractLsb' 0 16) := by
  have hle := popcount_le (v.extractLsb' 0 16)
  rw [popCount16, BitVec.toNat_ofNat, Nat.mod_eq_of_lt (by omega)]

/-- A value below 2^16 is its low half under 16 zeros. -/
theorem zero_append_lowHalf {v : Word} (h : v.toNat < 2 ^ 16) : (0#16 ++ v.extractLsb' 0 16 : BitVec (16 + 16)) = v := by
  refine BitVec.eq_of_toNat_eq ?_
  rw [BitVec.toNat_append]
  simpa using h

/-- So it has no bit set above the low half. -/
theorem popcount_lowHalf_of_lt {v : Word} (h : v.toNat < 2 ^ 16) : popcount (v.extractLsb' 0 16) = popcount v := by
  have hsum := popcount_append 0#16 (v.extractLsb' 0 16)
  rw [zero_append_lowHalf h, popcount_zero, Nat.zero_add] at hsum
  exact hsum.symm

/-! ## Arithmetic byte by byte

A word is its upper bytes followed by its lowest byte; where no carry leaves the lowest byte, an operation on the word is the
operation on each of the two parts. -/

section
variable {w : Nat} (x y : BitVec w) (b c : Byte)

theorem append_add_append (h : b.toNat + c.toNat < 2 ^ 8) : (x ++ b) + (y ++ c) = (x + y) ++ (b + c) := by
  refine BitVec.eq_of_toNat_eq ?_
  rw [BitVec.toNat_add, toNat_append_byte, toNat_append_byte, toNat_append_byte, BitVec.toNat_add_of_lt h, BitVec.toNat_add,
    Nat.pow_add, Nat.mul_comm (2 ^ w), Nat.mod_mul, Nat.mul_comm (_ % _)]
  congr 3 <;> omega

theorem append_sub_append (h : c.toNat ≤ b.toNat) : (x ++ b) - (y ++ c) = (x - y) ++ (b - c) := by
  have hcarry : (b - c).toNat + c.toNat < 2 ^ 8 := by
    rw [BitVec.toNat_sub_of_le h]
    omega
  rw [sub_eq_iff_eq_add, append_add_append _ _ _ _ hcarry, BitVec.sub_add_cancel, BitVec.sub_add_cancel]

/-- A shift brings bits of the upper part into the lowest byte. -/
theorem append_ushiftRight (k : Nat) : (x ++ b) >>> k = (x >>> k) ++ (x ++ b).extractLsb' k 8 := by
  refine BitVec.eq_of_getLsbD_eq fun i hi => ?_
  rw [BitVec.getLsbD_append (y := (x ++ b).extractLsb' k 8)]
  split
  · next hlow => simp [hlow]
  · next hhigh => simp [BitVec.getLsbD_append, show ¬ k + i < 8 by omega, show k + i - 8 = k + (i - 8) by omega]

/-- A mask that is zero where those bits come in takes them out again. -/
theorem append_ushiftRight_and (k : Nat) (h : c.toNat < 2 ^ (8 - k)) :
    ((x ++ b) >>> k) &&& (y ++ c) = ((x >>> k) &&& y) ++ ((b >>> k) &&& c) := by
  rw [append_ushiftRight, BitVec.and_append]
  congr 1
  refine BitVec.eq_of_getLsbD_eq fun i hi => ?_
  by_cases hk : k + i < 8
  · simp [BitVec.getLsbD_append, hi, hk]
  · have hc : c.getLsbD i = false := by
      rw [← BitVec.testBit_toNat]
      exact Nat.testBit_lt_two_pow (h.trans_le (Nat.pow_le_pow_right (by decide) (by omega)))
    simp [hc]

end

/-! ## The SWAR sequences (R120, R122) -/

/-- The first two steps of both SWAR sequences, over their masks: each group of four bits becomes the count of its bits. -/
def nibbleCounts {w : Nat} (m1 m2 v : BitVec w) : BitVec w :=
  let v1 := v - ((v >>> 1) &&& m1)
  (v1 &&& m2) + ((v1 >>> 2) &&& m2)

/-- The third step, over its mask: each byte becomes the sum of its two nibbles. -/
def addNibbles {w : Nat} (m4 v : BitVec w) : BitVec w := (v + (v >>> 4)) &&& m4

/-- The three steps on a single byte. -/
def byteCount (b : Byte) : Byte := addNibbles 0x0F#8 (nibbleCounts 0x55#8 0x33#8 b)

theorem swar32_eq (v : Word) : swar32 v =
    (addNibbles 0x0F0F0F0F#32 (nibbleCounts 0x55555555#32 0x33333333#32 v) * 0x01010101#32) >>> 24 := rfl

theorem swar16_eq (v : Word) : swar16 v =
    (addNibbles 0x0F0F#32 (nibbleCounts 0x5555#32 0x3333#32 v) * 0x0101#32).setWidth 16 >>> 8 := rfl

/-- Neither nibble of a byte counts more than 4: there are 256 bytes to look at. -/
theorem nibbleCounts_byte_le (b : Byte) : (nibbleCounts 0x55#8 0x33#8 b).toNat % 2 ^ 4 ≤ 4 ∧
    (nibbleCounts 0x55#8 0x33#8 b).toNat / 2 ^ 4 ≤ 4 := by
  revert b
  decide +kernel

theorem byteCount_toNat (b : Byte) : (byteCount b).toNat = popcount b := by
  revert b
  decide +kernel

/-- The first two steps borrow and carry nothing between bytes. -/
theorem nibbleCounts_append {w : Nat} (m1 m2 x : BitVec w) (b : Byte) :
    nibbleCounts (m1 ++ 0x55#8) (m2 ++ 0x33#8) (x ++ b) = nibbleCounts m1 m2 x ++ nibbleCounts 0x55#8 0x33#8 b := by
  have hborrow : ((b >>> 1) &&& 0x55#8).toNat ≤ b.toNat :=
    Nat.and_le_left.trans (BitVec.toNat_ushiftRight b 1 ▸ Nat.shiftRight_le ..)
  have hpair (u : Byte) : (u &&& 0x33#8).toNat ≤ 0x33 := Nat.and_le_right
  have hcarry (u u' : Byte) : (u &&& 0x33#8).toNat + (u' &&& 0x33#8).toNat < 2 ^ 8 := by
    have hu := hpair u
    have hu' := hpair u'
    omega
  simp only [nibbleCounts]
  rw [append_ushiftRight_and _ _ _ _ 1 (by decide), append_sub_append _ _ _ _ hborrow,
    append_ushiftRight_and _ _ _ _ 2 (by decide), BitVec.and_append, append_add_append _ _ _ _ (hcarry _ _)]

/-- Nor does the third step carry, where the nibbles that meet are at most 4. -/
theorem addNibbles_append {w : Nat} (m4 x : BitVec w) (b : Byte) (hx : x.toNat % 2 ^ 4 ≤ 4) (hlow : b.toNat % 2 ^ 4 ≤ 4)
    (hhigh : b.toNat / 2 ^ 4 ≤ 4) : addNibbles (m4 ++ 0x0F#8) (x ++ b) = addNibbles m4 x ++ addNibbles 0x0F#8 b := by
  have hin : ((x ++ b).extractLsb' 4 8).toNat = x.toNat % 2 ^ 4 * 2 ^ 4 + b.toNat / 2 ^ 4 := by
    rw [BitVec.extractLsb'_toNat, toNat_append_byte, Nat.shiftRight_eq_div_pow]
    omega
  have hbyte : (b + (x ++ b).extractLsb' 4 8) &&& 0x0F#8 = (b + (b >>> 4)) &&& 0x0F#8 := by
    refine BitVec.eq_of_toNat_eq ?_
    have hmask (u : Byte) : (u &&& 0x0F#8).toNat = u.toNat % 2 ^ 4 := Nat.and_two_pow_sub_one_eq_mod _ 4
    rw [hmask, hmask, BitVec.toNat_add, BitVec.toNat_add, hin, BitVec.toNat_ushiftRight, Nat.shiftRight_eq_div_pow]
    omega
  rw [addNibbles, append_ushiftRight, append_add_append _ _ _ _ (by omega), BitVec.and_append, hbyte]
  rfl

/-- So the three steps count the lowest byte of a word by itself, if the nibble above it holds a count. -/
theorem swar_append {w : Nat} (m1 m2 m4 x : BitVec w) (b : Byte) (hx : (nibbleCounts m1 m2 x).toNat % 2 ^ 4 ≤ 4) :
    addNibbles (m4 ++ 0x0F#8) (nibbleCounts (m1 ++ 0x55#8) (m2 ++ 0x33#8) (x ++ b)) =
      addNibbles m4 (nibbleCounts m1 m2 x) ++ byteCount b := by
  obtain ⟨hlow, hhigh⟩ := nibbleCounts_byte_le b
  rw [nibbleCounts_append, addNibbles_append _ _ _ hx hlow hhigh, byteCount]

theorem nibbleCounts_append_nibble {w : Nat} (m1 m2 x : BitVec w) (b : Byte) :
    (nibbleCounts (m1 ++ 0x55#8) (m2 ++ 0x33#8) (x ++ b)).toNat % 2 ^ 4 ≤ 4 := by
  obtain ⟨hlow, -⟩ := nibbleCounts_byte_le b
  rw [nibbleCounts_append, toNat_append_byte]
  omega

/-- With all four bytes in its masks the three steps count each byte of the word. -/
theorem swar_ofLE32 (b0 b1 b2 b3 : Byte) :
    addNibbles 0x0F0F0F0F#32 (nibbleCounts 0x55555555#32 0x33333333#32 (ofLE32 b0 b1 b2 b3)) =
      ofLE32 (byteCount b0) (byteCount b1) (byteCount b2) (byteCount b3) := by
  obtain ⟨htop, -⟩ := nibbleCounts_byte_le b3
  show addNibbles (0x0F#8 ++ 0x0F#8 ++ 0x0F#8 ++ 0x0F#8) (nibbleCounts (0x55#8 ++ 0x55#8 ++ 0x55#8 ++ 0x55#8)
    (0x33#8 ++ 0x33#8 ++ 0x33#8 ++ 0x33#8) (b3 ++ b2 ++ b1 ++ b0)) = _
  rw [swar_append _ _ _ _ _ (nibbleCounts_append_nibble ..), swar_append _ _ _ _ _ (nibbleCounts_append_nibble ..),
    swar_append _ _ _ _ _ htop]
  rfl

/-- With 16-bit masks they count the two low bytes, and the high half is lost. -/
theorem narrow_swar_ofLE32 (b0 b1 b2 b3 : Byte) :
    addNibbles 0x0F0F#32 (nibbleCounts 0x5555#32 0x3333#32 (ofLE32 b0 b1 b2 b3)) =
      0#16 ++ byteCount b1 ++ byteCount b0 := by
  have hhigh : nibbleCounts 0#16 0#16 (b3 ++ b2) = 0#16 := by simp [nibbleCounts]
  show addNibbles (0#16 ++ 0x0F#8 ++ 0x0F#8) (nibbleCounts (0#16 ++ 0x55#8 ++ 0x55#8)
    (0#16 ++ 0x33#8 ++ 0x33#8) ((b3 ++ b2) ++ b1 ++ b0)) = _
  rw [swar_append _ _ _ _ _ (nibbleCounts_append_nibble ..), swar_append _ _ _ _ _ (by rw [hhigh]; decide), hhigh]
  rfl

@[simp] theorem popcount_ofLE32 (b0 b1 b2 b3 : Byte) :
    popcount (ofLE32 b0 b1 b2 b3) = popcount b3 + popcount b2 + popcount b1 + popcount b0 := by
  rw [ofLE32, popcount_append, popcount_append, popcount_append]

theorem lowHalf_ofLE32 (b0 b1 b2 b3 : Byte) : (ofLE32 b0 b1 b2 b3).extractLsb' 0 16 = ofLE16 b0 b1 := by
  refine BitVec.eq_of_toNat_eq ?_
  rw [BitVec.extractLsb'_toNat, ofLE32_toNat, ofLE16_toNat, Nat.shiftRight_zero]
  omega

/-- The 32-bit product adds four byte counts up in its top byte, which they do not overflow. -/
theorem product_sums_bytes {n0 n1 n2 n3 : Nat} (h0 : n0 ≤ 8) (h1 : n1 ≤ 8) (h2 : n2 ≤ 8) (h3 : n3 ≤ 8) :
    (n0 + n1 * 2 ^ 8 + n2 * 2 ^ 16 + n3 * 2 ^ 24) * 0x01010101 % 2 ^ 32 / 2 ^ 24 = n3 + n2 + n1 + n0 := by
  have hproduct : (n0 + n1 * 2 ^ 8 + n2 * 2 ^ 16 + n3 * 2 ^ 24) * 0x01010101 =
      (n3 + n2 + n1 + n0) * 2 ^ 24 + ((n2 + n1 + n0) * 2 ^ 16 + (n1 + n0) * 2 ^ 8 + n0) +
        2 ^ 32 * (n1 + n2 * (1 + 2 ^ 8) + n3 * (1 + 2 ^ 8 + 2 ^ 16)) := by omega
  rw [hproduct, Nat.add_mul_mod_self_left, Nat.mod_eq_of_lt (by omega)]
  omega

theorem swar32_toNat (v : Word) : (swar32 v).toNat = popcount v := by
  rw [← ofLE32_bytes v]
  generalize v.extractLsb' 0 8 = b0, v.extractLsb' 8 8 = b1, v.extractLsb' 16 8 = b2, v.extractLsb' 24 8 = b3
  rw [swar32_eq, swar_ofLE32, popcount_ofLE32, BitVec.toNat_ushiftRight, BitVec.toNat_mul, ofLE32_toNat,
    Nat.shiftRight_eq_div_pow, byteCount_toNat, byteCount_toNat, byteCount_toNat, byteCount_toNat]
  exact product_sums_bytes (popcount_le b0) (popcount_le b1) (popcount_le b2) (popcount_le b3)

/-- Modulo 2^16 the product adds two byte counts up in its top byte. -/
theorem narrow_product_sums_bytes {n0 n1 : Nat} (h0 : n0 ≤ 8) (h1 : n1 ≤ 8) :
    (n0 + n1 * 2 ^ 8) * 0x0101 % 2 ^ 32 % 2 ^ 16 / 2 ^ 8 = n1 + n0 := by
  have hproduct : (n0 + n1 * 2 ^ 8) * 0x0101 = (n1 + n0) * 2 ^ 8 + n0 + 2 ^ 16 * n1 := by omega
  rw [Nat.mod_mod_of_dvd _ (pow_dvd_pow 2 (by decide : 16 ≤ 32)), hproduct, Nat.add_mul_mod_self_left,
    Nat.mod_eq_of_lt (by omega)]
  omega

theorem swar16_toNat (v : Word) : (swar16 v).toNat = popcount (v.extractLsb' 0 16) := by
  rw [← ofLE32_bytes v]
  generalize v.extractLsb' 0 8 = b0, v.extractLsb' 8 8 = b1, v.extractLsb' 16 8 = b2, v.extractLsb' 24 8 = b3
  rw [swar16_eq, narrow_swar_ofLE32, lowHalf_ofLE32, ofLE16, popcount_append, BitVec.toNat_ushiftRight,
    BitVec.toNat_setWidth, BitVec.toNat_mul, toNat_append_byte, toNat_append_byte, Nat.shiftRight_eq_div_pow,
    byteCount_toNat, byteCount_toNat]
  exact narrow_product_sums_bytes (popcount_le b0) (popcount_le b1)

/-- Settles O45: the SWAR sequence counts each byte by itself and adds the four counts up. -/
theorem swarSequenceCountsTheSetBits : Obligations.SwarSequenceCountsTheSetBits := by
  refine ⟨fun v => ⟨rfl, popcount_le v⟩, ?swar, fun v => onesBelow_eq_length_filter v 32⟩
  case swar => exact fun v => BitVec.eq_of_toNat_eq ((swar32_toNat v).trans (popCount32_toNat v).symm)

/-- Settles O46: the narrow SWAR sequence counts the two low bytes and adds the counts up; below 2^16 no other bit is
set. -/
theorem narrowSwarSequenceCountsTheLowHalf : Obligations.NarrowSwarSequenceCountsTheLowHalf := by
  refine ⟨?narrow, ?wide, ?swar⟩
  case narrow =>
    intro v h
    have hle := popcount_le (v.extractLsb' 0 16)
    rw [popcount_lowHalf_of_lt h] at hle
    exact ⟨(popCount16_toNat v).trans (popcount_lowHalf_of_lt h), hle⟩
  case wide =>
    intro v
    have hlow : v.extractLsb' 0 16 = BitVec.ofNat 16 (v.toNat % 2 ^ 16) := BitVec.eq_of_toNat_eq (by simp)
    rw [popCount16_toNat, hlow]
  case swar => exact fun v => BitVec.eq_of_toNat_eq ((swar16_toNat v).trans (popCount16_toNat v).symm)

/-! ## The population count commands (R121, R123) -/

/-- Settles O29: the command only delivers the count. -/
theorem popcnt32Command : Obligations.Popcnt32Command := by
  refine ⟨fun _ => rfl, ?result, fun value => ⟨popCount32_toNat value, popcount_le value⟩, ?cornerCases⟩
  case result => exact fun s value => s.deliver_completes (.word (popCount32 value))
  case cornerCases => decide

/-- Settles O30: the command only delivers the count of the low half. -/
theorem popcnt16Command : Obligations.Popcnt16Command := by
  refine ⟨fun _ => rfl, ?result, ?range, ?cornerCases⟩
  case result => exact fun s value => s.deliver_completes (.half (popCount16 value))
  case range =>
    intro value
    rw [popCount16_toNat]
    exact ⟨rfl, popcount_le _⟩
  case cornerCases => decide

/-! ## Bit reversal (R124, R125) -/

/-- A round inserts the lowest bit of `x` under the bits of `o`. -/
theorem getLsbD_insert (o x : Byte) {i : Nat} (hi : i < 8) :
    ((o <<< 1) ||| (x &&& 0x01#8)).getLsbD i = if i = 0 then x.getLsbD 0 else o.getLsbD (i - 1) := by
  rw [BitVec.getLsbD_or, BitVec.getLsbD_shiftLeft, BitVec.getLsbD_and, show (0x01#8 : Byte) = BitVec.twoPow 8 0 from rfl,
    BitVec.getLsbD_twoPow]
  cases i with
  | zero => simp
  | succ i => simp [hi]

/-- After `k` rounds the lowest `k` bits are those of `x` in reverse, under the bits inserted before. -/
theorem getLsbD_rev8Loop (k : Nat) (o x : Byte) {i : Nat} (hi : i < 8) :
    (rev8Loop k o x).getLsbD i = if i < k then x.getLsbD (k - 1 - i) else o.getLsbD (i - k) := by
  induction k generalizing o x with
  | zero => rfl
  | succ k ih =>
    rw [rev8Loop, ih, getLsbD_insert o x (by omega), BitVec.getLsbD_ushiftRight]
    obtain hlt | rfl | hgt := Nat.lt_trichotomy i k
    · rw [if_pos hlt, if_pos (by omega), show 1 + (k - 1 - i) = k + 1 - 1 - i by omega]
    · rw [if_neg (by omega), if_pos (by omega), if_pos (by omega), show i + 1 - 1 - i = 0 by omega]
    · rw [if_neg (by omega), if_neg (by omega), if_neg (by omega), Nat.sub_sub]

/-- Settles O47: all eight bits of the result were inserted by the loop, in reverse. -/
theorem reversalExchangesTheBits : Obligations.ReversalExchangesTheBits := by
  intro v i hi
  rw [rev8, getLsbD_rev8Loop _ _ _ hi, if_pos hi]

/-- Settles O31: the command only delivers the reversed byte; the fixed points are found among the 256 bytes. -/
theorem rev8Command : Obligations.Rev8Command := by
  refine ⟨fun _ => rfl, ?result, ?fixedPoints, by decide⟩
  case result => exact fun s value => s.deliver_completes (.byte (rev8 value))
  case fixedPoints => decide +kernel

end Sys2Proof.Machine
end

section
/-! SUPPORT. Proofs about 60_exceptions.md: which frames raise IllegalCommand (R68, R142) and what the step that reports it does
(R141). -/

namespace Sys2Proof.Machine

/-- The ranges of R68 are the bytes with no row in the opcode map of R64, as all 256 bytes show. -/
theorem reservedOpcode_iff_opcodeOf_eq_none (op : Byte) : reservedOpcode op = true ↔ opcodeOf op = none := by
  revert op
  decide +kernel

/-- The check is made on byte 0 alone, whatever follows it (R146). -/
theorem decode_cons_of_reservedOpcode {op : Byte} (rest : List Byte) (h : reservedOpcode op = true) :
    decode (op :: rest) = .illegalCommand op rest :=
  (decode_illegalCommand_iff _ _ _).2 ⟨rfl, (reservedOpcode_iff_opcodeOf_eq_none op).1 h⟩

/-- The step that serves a reserved opcode consumes that byte and then raises IllegalCommand. -/
theorem step_of_decode_illegalCommand {s : State} {p : Nat} {op : Byte} {rest : List Byte} (hp : s.pickPort = some p)
    (hd : decode (s.port p).rx = .illegalCommand op rest) : step s = .next (s.beginFrame p rest).illegalCommand := by
  simp only [step, State.serveNext, hp, State.servePort, State.fetch, hd]

/-- Settles O13: the step consumes the opcode byte and sends `.illegal`; `Served` says what the ports are then, and neither of the
two operations touches the table cache or the strategy. -/
theorem illegalCommandAnswersAndChangesNothingElse : Obligations.IllegalCommandAnswersAndChangesNothingElse := by
  intro s p op rest hs hp hrx hop
  have hd : decode (s.port p).rx = .illegalCommand op rest := by rw [hrx, decode_cons_of_reservedOpcode rest hop]
  have hserved : Served s (s.beginFrame p rest).illegalCommand p .illegal rest :=
    (s.beginFrame_began hs.ports p rest).served (State.respond_delivered _ _) (firstAnswer_illegalCommand hd)
  exact ⟨_, step_of_decode_illegalCommand hp hd, hserved.served, rfl, hserved.others, rfl, rfl⟩

end Sys2Proof.Machine
end

section
/-! SUPPORT. Proofs about 70_reset_and_hazards.md: every complete frame is answered, whatever hosts do meanwhile (R168), and CORE
accepts a frame on any port after reset (R160). -/

namespace Sys2Proof.Machine

/-! ## Answers with further bytes behind them -/

/-- Bytes with a first answer enable a step. -/
theorem startsFrame_of_firstAnswer {bytes rest : List Byte} {r : Response} (h : firstAnswer bytes = some (r, rest)) :
    startsFrame bytes = true := by
  unfold firstAnswer at h
  split at h
  · next hd => exact startsFrame_command _ _ _ hd
  · next hd => exact startsFrame_illegalCommand _ _ _ hd
  · cases h

/-- The first answer does not depend on the bytes behind its frame (R50, R60). -/
theorem firstAnswer_append {bytes rest : List Byte} {r : Response} (h : firstAnswer bytes = some (r, rest))
    (more : List Byte) : firstAnswer (bytes ++ more) = some (r, rest ++ more) := by
  unfold firstAnswer at h
  split at h
  · next hd => cases h; exact firstAnswer_command (decode_command_append _ _ more _ hd)
  · next hd => cases h; exact firstAnswer_illegalCommand (decode_illegalCommand_append _ _ more _ hd)
  · cases h

/-- Where nothing is answered first, nothing is owed (R69). -/
theorem answersTo_of_firstAnswer_eq_none {bytes : List Byte} (h : firstAnswer bytes = none) : answersTo bytes = [] :=
  answersUpTo_none _ h

/-- What is owed for a stream is owed first, in the same order, when further bytes arrive. -/
theorem answersTo_prefix_append (bytes more : List Byte) : answersTo bytes <+: answersTo (bytes ++ more) := by
  cases hf : firstAnswer bytes with
  | none => rw [answersTo_of_firstAnswer_eq_none hf]; exact List.nil_prefix
  | some a =>
    obtain ⟨r, rest⟩ := a
    have hlen := firstAnswer_length hf
    rw [answersTo_some hf, answersTo_some (firstAnswer_append hf more), List.cons_prefix_cons]
    exact ⟨rfl, answersTo_prefix_append rest more⟩
termination_by bytes.length

/-! ## The state a step leaves -/

/-- A command over a right cache is its response, over a cache that is right again. -/
theorem exec_responds (i : Instr) (s : State) (hs : cacheWf s.cache = true) :
    ∃ c, cacheWf c = true ∧ exec i s = .next (State.respond { s with cache := c } (.ok (resultOf i))) := by
  obtain ⟨c, v, hexec, hc, hv⟩ := exec_shape i s
  obtain rfl := hv hs
  refine ⟨c, ?_, hexec⟩
  obtain rfl | ⟨q, rfl⟩ := hc
  · exact hs
  · exact cacheWf_completeTable q _ hs

/-- A step waits, or is the first answer of the picked port, sent once its frame is consumed. -/
theorem step_waits_or_responds (s : State) (hs : Inv s) :
    (s.pickPort = none ∧ step s = .next s) ∨
    ∃ p r rest c, s.pickPort = some p ∧ cacheWf c = true ∧
      step s = .next (State.respond { s.beginFrame p rest with cache := c } r) := by
  obtain hwait | ⟨p, i, rest, hp, -, hexec⟩ | ⟨p, op, rest, hp, -, hillegal⟩ | ⟨p, hp, hd, -⟩ := step_cases s
  · exact .inl hwait
  · obtain ⟨c, hc, hresponds⟩ := exec_responds i (s.beginFrame p rest) hs.cache
    exact .inr ⟨p, _, rest, c, hp, hc, hexec.trans hresponds⟩
  · exact .inr ⟨p, .illegal, rest, s.cache, hp, hs.cache, hillegal⟩
  · exact absurd hd (s.pickPort_not_incomplete hs.ports p hp)

/-- From a state that meets the invariant a step answers a next state, which meets it too (R140). -/
theorem step_next_inv (s : State) (hs : Inv s) : ∃ t, step s = .next t ∧ Inv t := by
  obtain ⟨-, hwait⟩ | ⟨p, r, rest, c, hp, hc, hstep⟩ := step_waits_or_responds s hs
  · exact ⟨s, hwait, hs⟩
  · have hbegun := s.beginFrame_inv hs p rest (s.pickPort_lt hs.ports p hp)
    exact ⟨_, hstep, State.respond_inv _ _ ⟨hbegun.ports, hbegun.serving, hc⟩⟩

theorem step_inv {s t : State} (hs : Inv s) (h : step s = .next t) : Inv t := by
  obtain ⟨u, hu, hinv⟩ := step_next_inv s hs
  rwa [Host.Outcome.next.inj (h.symm.trans hu)]

/-- A step that does not wait counts one more served frame. -/
theorem step_picks {s t : State} (hs : Inv s) (hbusy : s.pickPort ≠ none) (h : step s = .next t) :
    t.picks = s.picks + 1 := by
  obtain ⟨hnone, -⟩ | ⟨p, r, rest, c, -, -, hstep⟩ := step_waits_or_responds s hs
  · exact absurd hnone hbusy
  · rw [Host.Outcome.next.inj (h.symm.trans hstep), State.respond_picks, State.beginFrame_picks]

/-- The step that picks a port serves that port. -/
theorem step_serves {s t : State} {p : Nat} (hs : Inv s) (hp : s.pickPort = some p) (h : step s = .next t) :
    ∃ r rest, Served s t p r rest := by
  obtain ⟨hnone, -⟩ | ⟨q, r, rest, hq, hserved⟩ := step_waits_or_serves s t hs h
  · cases hp.symm.trans hnone
  · obtain rfl : p = q := Option.some.inj (hp.symm.trans hq)
    exact ⟨r, rest, hserved⟩

/-- A step that does not pick a port leaves it as it is (R55). -/
theorem step_port_of_not_picked {s t : State} {p : Nat} (hs : Inv s) (hp : s.pickPort ≠ some p) (h : step s = .next t) :
    t.port p = s.port p := by
  obtain ⟨-, rfl⟩ | ⟨q, r, rest, hq, hserved⟩ := step_waits_or_serves s t hs h
  · rfl
  · exact hserved.others p fun hpq => hp (hpq ▸ hq)

/-! ## What hosts do between two steps (R169) -/

theorem State.receive_inv {s : State} (hs : Inv s) {p : Nat} (hp : p < Config.nPorts) (bytes : List Byte) :
    Inv (s.receive p bytes) :=
  ⟨portsWf_putPort _ _ _ hs.ports hp, hs.serving, hs.cache⟩

theorem State.callerTake_inv {s : State} (hs : Inv s) {p : Nat} (hp : p < Config.nPorts) : Inv (s.callerTake p).2 :=
  ⟨portsWf_putPort _ _ _ hs.ports hp, hs.serving, hs.cache⟩

theorem HostActs.inv {s t : State} (h : HostActs s t) (hs : Inv s) : Inv t := by
  induction h with
  | nothing => exact hs
  | send t u p bytes _ hsend ih =>
    obtain ⟨hp, rfl⟩ := State.callerSend_some _ _ _ _ hsend
    exact State.receive_inv ih hp bytes
  | take t p _ hp ih => exact State.callerTake_inv ih hp

/-- Hosts serve no frame. -/
theorem HostActs.picks_eq {s t : State} (h : HostActs s t) : t.picks = s.picks := by
  induction h with
  | nothing => rfl
  | send t u p bytes _ hsend ih =>
    obtain ⟨-, rfl⟩ := State.callerSend_some _ _ _ _ hsend
    exact ih
  | take t p _ _ ih => exact ih

theorem State.rx_prefix_receive {s : State} (hs : Inv s) (p q : Nat) (bytes : List Byte) :
    (s.port q).rx <+: ((s.receive p bytes).port q).rx := by
  by_cases hpq : p = q
  · subst hpq
    rw [State.port_receive_same s hs.ports]
    exact List.prefix_append _ _
  · rw [State.port_receive_other s p q bytes hpq]

theorem State.port_callerTake_same {s : State} (hs : Inv s) (p : Nat) :
    (s.callerTake p).2.port p = { s.port p with tx := [] } :=
  State.port_setPort_same _ _ _ (.inr hs.ports)

theorem State.port_callerTake_rx {s : State} (hs : Inv s) (p q : Nat) :
    ((s.callerTake p).2.port q).rx = (s.port q).rx := by
  by_cases hpq : p = q
  · subst hpq
    rw [State.port_callerTake_same hs]
  · exact congrArg Port.rx (State.port_setPort_other s p q _ hpq)

/-- Whatever hosts do, bytes received stay first on their port (R50, R169). -/
theorem HostActs.rx_prefix {s t : State} (h : HostActs s t) (hs : Inv s) (q : Nat) :
    (s.port q).rx <+: (t.port q).rx := by
  induction h with
  | nothing => exact List.prefix_rfl
  | send t u p bytes hacts hsend ih =>
    obtain ⟨-, rfl⟩ := State.callerSend_some _ _ _ _ hsend
    exact ih.trans (State.rx_prefix_receive (hacts.inv hs) p q bytes)
  | take t p hacts _ ih => rwa [State.port_callerTake_rx (hacts.inv hs)]

/-! ## Runs in which hosts act between the steps -/

/-- A run: `σ k` is the state after `k` steps, and `τ k` what hosts made of it before the next one. -/
structure HostRun (σ τ : Nat → State) : Prop where
  start : Inv (σ 0)
  acts : ∀ k, HostActs (σ k) (τ k)
  steps : ∀ k, step (τ k) = .next (σ (k + 1))

section
variable {σ τ : Nat → State} (run : HostRun σ τ)
include run

theorem HostRun.inv (k : Nat) : Inv (σ k) := by
  induction k with
  | zero => exact run.start
  | succ k ih => exact step_inv ((run.acts k).inv ih) (run.steps k)

theorem HostRun.inv_acted (k : Nat) : Inv (τ k) :=
  (run.acts k).inv (run.inv k)

/-- As long as a port is not picked, the bytes it received stay first on it. -/
theorem HostRun.rx_prefix_of_unpicked {n m p : Nat} (hnm : n ≤ m)
    (hp : ∀ k, n ≤ k → k < m → (τ k).pickPort ≠ some p) : ((σ n).port p).rx <+: ((τ m).port p).rx := by
  induction m, hnm using Nat.le_induction with
  | base => exact (run.acts n).rx_prefix (run.inv n) p
  | succ m hnm ih =>
    have hkept : (σ (m + 1)).port p = (τ m).port p :=
      step_port_of_not_picked (run.inv_acted m) (hp m hnm (Nat.lt_succ_self m)) (run.steps m)
    calc ((σ n).port p).rx <+: ((τ m).port p).rx := ih fun k hk hkm => hp k hk (Nat.lt_succ_of_lt hkm)
      _ = ((σ (m + 1)).port p).rx := by rw [hkept]
      _ <+: ((τ (m + 1)).port p).rx := (run.acts (m + 1)).rx_prefix (run.inv (m + 1)) p

/-- Where no step waits, each one counts one more served frame. -/
theorem HostRun.picks_add {n : Nat} (hbusy : ∀ k, n ≤ k → (τ k).pickPort ≠ none) (d : Nat) :
    (τ (n + d)).picks = (τ n).picks + d := by
  induction d with
  | zero => rfl
  | succ d ih =>
    calc (τ (n + d + 1)).picks = (σ (n + d + 1)).picks := (run.acts _).picks_eq
      _ = (τ (n + d)).picks + 1 := step_picks (run.inv_acted _) (hbusy _ (Nat.le_add_right n d)) (run.steps _)
      _ = (τ n).picks + (d + 1) := by rw [ih, Nat.add_assoc]

/-- A port with a complete frame is picked by some later step (R168): else it would stay ready, so that no step would wait and the
count of served frames would reach a turn of that port. -/
theorem HostRun.picked_eventually {n p : Nat} {r : Response} {rest : List Byte}
    (hfirst : firstAnswer ((σ n).port p).rx = some (r, rest)) : ∃ m, n ≤ m ∧ (τ m).pickPort = some p := by
  by_contra! hnever
  have hstarts (k : Nat) (hk : n ≤ k) : startsFrame ((τ k).port p).rx = true := by
    obtain ⟨more, hmore⟩ := run.rx_prefix_of_unpicked hk fun l hl _ => hnever l hl
    rw [← hmore]
    exact startsFrame_of_firstAnswer (firstAnswer_append hfirst more)
  have hready (k : Nat) (hk : n ≤ k) : p ∈ (τ k).readyPorts :=
    ((τ k).mem_readyPorts (run.inv_acted k).ports p).2 (hstarts k hk)
  have hbusy (k : Nat) (hk : n ≤ k) : (τ k).pickPort ≠ none := fun hnone =>
    List.ne_nil_of_mem (hready k hk) ((τ k).pickPort_eq_none_iff.1 hnone)
  have hexists : p < Config.nPorts :=
    (τ n).port_lt (run.inv_acted n).ports p (ne_idle_of_startsFrame _ (hstarts n le_rfl))
  obtain ⟨turn, hturn, hdue⟩ := duePort_again (τ n).picks p hexists
  obtain ⟨d, rfl⟩ := Nat.exists_eq_add_of_le hturn
  rw [← run.picks_add hbusy d] at hdue
  exact hnever (n + d) (Nat.le_add_right n d) ((τ (n + d)).pickPort_due p hdue (hready _ (Nat.le_add_right n d)))

/-- The first of the later steps that pick the port serves the frame that was complete, and leaves the bytes after it first. -/
theorem HostRun.first_frame_served {n p : Nat} {r : Response} {rest : List Byte}
    (hfirst : firstAnswer ((σ n).port p).rx = some (r, rest)) :
    ∃ m more, n ≤ m ∧ (τ m).pickPort = some p ∧ Served (τ m) (σ (m + 1)) p r (rest ++ more) := by
  have hpicked := run.picked_eventually hfirst
  obtain ⟨hm, hp⟩ := Nat.find_spec hpicked
  obtain ⟨more, hmore⟩ := run.rx_prefix_of_unpicked hm fun k hk hkm hkp => Nat.find_min hpicked hkm ⟨hk, hkp⟩
  obtain ⟨r', rest', hserved⟩ := step_serves (run.inv_acted _) hp (run.steps _)
  have hanswer := hserved.answer
  rw [← hmore, firstAnswer_append hfirst more] at hanswer
  cases hanswer
  exact ⟨_, more, hm, hp, hserved⟩

/-- Each response owed is sent, by induction on its place in the order: once the first one is sent, the others are owed for the bytes
left. -/
theorem HostRun.owed_response_sent (p j : Nat) (n : Nat) (r : Response)
    (howed : (answersTo ((σ n).port p).rx)[j]? = some r) :
    ∃ m, n ≤ m ∧ (τ m).pickPort = some p ∧ ((σ (m + 1)).port p).tx = ((τ m).port p).tx ++ [r] := by
  cases hfirst : firstAnswer ((σ n).port p).rx with
  | none => rw [answersTo_of_firstAnswer_eq_none hfirst] at howed; cases howed
  | some a =>
    obtain ⟨r₀, rest⟩ := a
    obtain ⟨m, more, hm, hp, hserved⟩ := run.first_frame_served hfirst
    rw [answersTo_some hfirst] at howed
    cases j with
    | zero =>
      obtain rfl : r₀ = r := Option.some.inj howed
      exact ⟨m, hm, hp, by rw [hserved.served]⟩
    | succ j =>
      rw [List.getElem?_cons_succ] at howed
      have hstill : (answersTo ((σ (m + 1)).port p).rx)[j]? = some r := by
        obtain ⟨later, hlater⟩ := answersTo_prefix_append rest more
        rw [hserved.served, ← hlater, List.getElem?_append_left (List.getElem?_eq_some_iff.1 howed).1]
        exact howed
      obtain ⟨l, hl, hsent⟩ := HostRun.owed_response_sent p j (m + 1) r hstill
      exact ⟨l, by omega, hsent⟩

end

/-- Settles O53: a port with a complete frame is picked again and again, and each time its first owed response is sent. -/
theorem noCompleteFrameIsStarved : Obligations.NoCompleteFrameIsStarved := by
  intro σ τ n p j r hstart hrun howed
  have run : HostRun σ τ := ⟨hstart, fun k => (hrun k).1, fun k => (hrun k).2⟩
  exact run.owed_response_sent p j n r howed

/-! ## After reset (R160) -/

/-- The frame of a command that a frame can carry decodes to it, with nothing left. -/
theorem decode_encode {i : Instr} (h : i.wf = true) : decode (encode i) = .command i [] := by
  have buffer {data : List Byte} (hdata : bufferFits data = true) :
      fieldBuffer (bytesOfBuffer data) = some (data, []) := by
    simpa using fieldBuffer_bytes data [] hdata
  have half (v : Half) : field16 (bytesLE16 v) = some (v, []) := by simpa using field16_bytes v []
  have word (v : Word) : field32 (bytesLE32 v) = some (v, []) := by simpa using field32_bytes v []
  cases i with
  | crc16Entry index sel => exact decode_code_cons (o := .crc16Entry) (by simp [decodeOperands, word])
  | crc16Byte sel byte acc => exact decode_code_cons (o := .crc16Byte) (by simp [decodeOperands, half])
  | crc16Buf sel data acc =>
    exact decode_code_cons (o := .crc16Buf) (by simp [decodeOperands, List.append_assoc, buffer h])
  | crc16Calc sel data => exact decode_code_cons (o := .crc16Calc) (by simp [decodeOperands, buffer h])
  | crc8Byte poly byte acc => exact decode_code_cons (o := .crc8Byte) rfl
  | crc8Calc poly init xorOut data => exact decode_code_cons (o := .crc8Calc) (by simp [decodeOperands, buffer h])
  | popcnt32 value => exact decode_code_cons (o := .popcnt32) (by simp [decodeOperands, word])
  | popcnt16 value => exact decode_code_cons (o := .popcnt16) (by simp [decodeOperands, word])
  | rev8 value => exact decode_code_cons (o := .rev8) rfl

theorem State.reset_inv : Inv State.reset :=
  ⟨rfl, Nat.succ_pos _, rfl⟩

theorem State.callerReset_inv {s : State} (hs : Inv s) : Inv s.callerReset :=
  ⟨(resetPorts_spec s.ports hs.ports).1, Nat.succ_pos _, cacheWf_afterReset _ _ hs.cache⟩

/-- A reset drops the received bytes of every port (R161). -/
theorem State.port_callerReset {s : State} (hs : Inv s) (p : Nat) :
    s.callerReset.port p = { s.port p with rx := [] } :=
  (resetPorts_spec s.ports hs.ports).2.2 p

/-- The only port with a complete frame is the one that moves. -/
theorem State.pickPort_of_only_ready {s : State} (hs : Inv s) {p : Nat} (hp : startsFrame (s.port p).rx = true)
    (hothers : ∀ q, q ≠ p → startsFrame (s.port q).rx = false) : s.pickPort = some p := by
  cases hpick : s.pickPort with
  | none =>
    have hready := (s.mem_readyPorts hs.ports p).2 hp
    rw [s.pickPort_eq_none_iff.1 hpick] at hready
    cases hready
  | some q =>
    have hq := s.pickPort_startsFrame hs.ports q hpick
    by_contra hne
    rw [hothers q fun heq => hne (congrArg some heq)] at hq
    cases hq

/-- A command issued where no port has received bytes is performed by the next step, and its response is all that step sends. -/
theorem step_of_first_frame {s : State} (hs : Inv s) (hempty : ∀ q, (s.port q).rx = []) {p : Nat} {i : Instr}
    (hp : p < Config.nPorts) (hi : i.wf = true) : ∃ u t, s.callerIssue p i = some u ∧ step u = .next t ∧
      t.port p = { rx := [], tx := (s.port p).tx ++ [.ok (resultOf i)] } ∧ ∀ q, q ≠ p → t.port q = s.port q := by
  have hu : Inv (s.receive p (encode i)) := State.receive_inv hs hp _
  have hport : (s.receive p (encode i)).port p = { s.port p with rx := encode i } := by
    rw [s.port_receive_same hs.ports, hempty p, List.nil_append]
  have hothers (q : Nat) (hq : q ≠ p) : (s.receive p (encode i)).port q = s.port q :=
    s.port_receive_other p q _ (Ne.symm hq)
  have hpick : (s.receive p (encode i)).pickPort = some p := by
    refine State.pickPort_of_only_ready hu ?_ fun q hq => ?_
    · rw [hport]; exact startsFrame_command _ _ _ (decode_encode hi)
    · rw [hothers q hq, hempty q, startsFrame_nil]
  obtain ⟨t, hstep, -⟩ := step_next_inv _ hu
  obtain ⟨r, rest, hserved⟩ := step_serves hu hpick hstep
  have hanswer := hserved.answer
  rw [hport, firstAnswer_command (decode_encode hi)] at hanswer
  cases hanswer
  refine ⟨_, t, if_pos hp, hstep, ?_, fun q hq => (hserved.others q hq).trans (hothers q hq)⟩
  rw [hserved.served, hport]

/-- Settles O19: power-on and reset leave no received bytes, so a frame sent then is the first and only one. -/
theorem afterResetEveryPortAcceptsAFrame : Obligations.AfterResetEveryPortAcceptsAFrame := by
  have hempty {s : State} (hs : Inv s) (p : Nat) : (s.callerReset.port p).rx = [] := by rw [State.port_callerReset hs]
  refine ⟨fun _ => rfl, fun s hs => hempty hs, ?afterReset, ?afterPowerOn⟩
  case afterReset =>
    intro s p i hs hp hi
    obtain ⟨u, t, hissue, hstep, hport, hothers⟩ :=
      step_of_first_frame (State.callerReset_inv hs) (hempty hs) hp hi
    exact ⟨u, t, hissue, hstep, by rw [hport], by rw [hport], hothers⟩
  case afterPowerOn =>
    intro p i hp hi
    obtain ⟨u, t, hissue, hstep, hport, -⟩ := step_of_first_frame State.reset_inv (fun _ => rfl) hp hi
    exact ⟨u, t, hissue, hstep, hport⟩

end Sys2Proof.Machine
end

section
/-! SUPPORT. Proofs about 30_encoding.md: each command has one frame and each frame one command (R60, R61, R65), a frame's length is
known from its header (R62), and which bytes are no command (R68, R69). -/

namespace Sys2Proof.Machine

/-! ## Commands and their frames (R60, R61, R65) -/

/-- Settles O1: the frame decodes to its command with nothing left, and bytes behind a frame are left as they are. -/
theorem decodeOfEncodeIsTheCommand : Obligations.DecodeOfEncodeIsTheCommand :=
  fun i rest hi => decode_command_append (encode i) [] rest i (decode_encode hi)

/-- Settles O3: the decoder computes on the three frames. -/
theorem writtenFramesDecode : Obligations.WrittenFramesDecode :=
  ⟨by decide, by decide, by decide⟩

/-- Each operation has one opcode byte. -/
theorem eq_code_of_opcodeOf {op : Byte} {o : Opcode} (h : opcodeOf op = some o) : op = o.code := by
  revert op o
  decide +kernel

/-- Operands that were read stand, behind the opcode byte, in the frame of the command they make. -/
theorem encode_of_decodeOperands {o : Opcode} {bs rest : List Byte} {i : Instr}
    (h : decodeOperands o bs = some (i, rest)) : o.code :: bs = encode i ++ rest ∧ i.wf = true := by
  cases o <;> simp only [decodeOperands, Option.bind_eq_some_iff, Prod.exists] at h
  case crc16Entry =>
    obtain ⟨index, _, hindex, sel, _, hsel, heq⟩ := h; cases heq
    obtain rfl := field8_some _ _ _ hindex
    obtain rfl := field32_some _ _ _ hsel
    exact ⟨rfl, rfl⟩
  case crc16Byte =>
    obtain ⟨sel, _, hsel, byte, _, hbyte, acc, _, hacc, heq⟩ := h; cases heq
    obtain rfl := field32_some _ _ _ hsel
    obtain rfl := field8_some _ _ _ hbyte
    obtain rfl := field16_some _ _ _ hacc
    exact ⟨rfl, rfl⟩
  case crc16Buf =>
    obtain ⟨sel, _, hsel, acc, _, hacc, data, _, hdata, heq⟩ := h; cases heq
    obtain rfl := field32_some _ _ _ hsel
    obtain rfl := field16_some _ _ _ hacc
    obtain ⟨rfl, hfits⟩ := fieldBuffer_some _ _ _ hdata
    exact ⟨rfl, hfits⟩
  case crc16Calc =>
    obtain ⟨sel, _, hsel, data, _, hdata, heq⟩ := h; cases heq
    obtain rfl := field32_some _ _ _ hsel
    obtain ⟨rfl, hfits⟩ := fieldBuffer_some _ _ _ hdata
    exact ⟨rfl, hfits⟩
  case crc8Byte =>
    obtain ⟨poly, _, hpoly, byte, _, hbyte, acc, _, hacc, heq⟩ := h; cases heq
    obtain rfl := field8_some _ _ _ hpoly
    obtain rfl := field8_some _ _ _ hbyte
    obtain rfl := field8_some _ _ _ hacc
    exact ⟨rfl, rfl⟩
  case crc8Calc =>
    obtain ⟨poly, _, hpoly, init, _, hinit, xorOut, _, hxorOut, data, _, hdata, heq⟩ := h; cases heq
    obtain rfl := field8_some _ _ _ hpoly
    obtain rfl := field8_some _ _ _ hinit
    obtain rfl := field8_some _ _ _ hxorOut
    obtain ⟨rfl, hfits⟩ := fieldBuffer_some _ _ _ hdata
    exact ⟨rfl, hfits⟩
  case popcnt32 | popcnt16 =>
    obtain ⟨value, _, hvalue, heq⟩ := h; cases heq
    obtain rfl := field32_some _ _ _ hvalue
    exact ⟨rfl, rfl⟩
  case rev8 =>
    obtain ⟨value, _, hvalue, heq⟩ := h; cases heq
    obtain rfl := field8_some _ _ _ hvalue
    exact ⟨rfl, rfl⟩

/-- Settles O2: the opcode byte is its operation's, and the operands read make up the rest of the frame. -/
theorem decodedBytesAreTheFrame : Obligations.DecodedBytesAreTheFrame := by
  intro bytes i rest h
  obtain ⟨op, t, o, rfl, hop, hoperands⟩ := (decode_command_iff _ _ _).1 h
  rw [eq_code_of_opcodeOf hop]
  exact encode_of_decodeOperands hoperands

/-! ## The length of a frame (R62) -/

/-- A frame has the length R62 gives its command. -/
theorem encode_length (i : Instr) : (encode i).length = frameBytes i := by
  cases i with
  | crc16Entry index sel => exact Laws.FrameLength.crc16Entry index sel
  | crc16Byte sel byte acc => exact Laws.FrameLength.crc16Byte sel byte acc
  | crc16Buf sel data acc => exact Laws.FrameLength.crc16Buf sel data acc
  | crc16Calc sel data => exact Laws.FrameLength.crc16Calc sel data
  | crc8Byte poly byte acc => exact Laws.FrameLength.crc8Byte poly byte acc
  | crc8Calc poly init xorOut data => exact Laws.FrameLength.crc8Calc poly init xorOut data
  | popcnt32 value => exact Laws.FrameLength.popcnt32 value
  | popcnt16 value => exact Laws.FrameLength.popcnt16 value
  | rev8 value => exact Laws.FrameLength.rev8 value

/-- A length field that has arrived is read the same with further bytes behind it. -/
theorem bufferFrameLength_append {header n : Nat} {bs : List Byte} (h : bufferFrameLength header bs = some n)
    (more : List Byte) : bufferFrameLength header (bs ++ more) = some n := by
  obtain ⟨⟨len, rest⟩, hfield, heq⟩ := Option.map_eq_some_iff.1 h
  have hlength : header - 4 ≤ bs.length := by
    by_contra hlt
    rw [List.drop_eq_nil_of_le (by omega)] at hfield
    cases hfield
  rw [bufferFrameLength, List.drop_append_of_le_length hlength, field32_append _ _ more _ hfield]
  exact congrArg some heq

/-- A length that is known stays when further bytes arrive. -/
theorem frameLength_append {bs : List Byte} {n : Nat} (h : frameLength bs = some n) (more : List Byte) :
    frameLength (bs ++ more) = some n := by
  cases bs with
  | nil => cases h
  | cons op bs =>
    simp only [List.cons_append, frameLength] at h ⊢
    cases hop : opcodeOf op with
    | none => rwa [hop] at h
    | some o =>
      rw [hop] at h
      cases o
      case crc16Buf | crc16Calc | crc8Calc => exact bufferFrameLength_append h more
      all_goals exact h

/-- The length field of a buffer frame holds the length of its buffer. -/
theorem bufferLength_toNat {data : List Byte} (h : bufferFits data = true) :
    (BitVec.ofNat 32 data.length).toNat = data.length :=
  Nat.mod_eq_of_lt ((bufferFits_iff data).1 h)

/-- The opcode, or the fixed header of a buffer frame, tells the length of the frame. -/
theorem frameLength_header {i : Instr} (h : i.wf = true) :
    frameLength ((encode i).take (lengthKnownAfter i)) = some (frameBytes i) := by
  have field {data : List Byte} (header : Nat) (h : bufferFits data = true) :
      (field32 (bytesLE32 (BitVec.ofNat 32 data.length))).map (fun (n, _) => header + n.toNat) =
        some (header + data.length) := by
    rw [← List.append_nil (bytesLE32 _), field32_bytes]
    exact congrArg (fun n => some (header + n)) (bufferLength_toNat h)
  cases i with
  | crc16Buf sel data acc => exact field 11 h
  | crc16Calc sel data => exact field 9 h
  | crc8Calc poly init xorOut data => exact field 8 h
  | crc16Entry | crc16Byte | crc8Byte | popcnt32 | popcnt16 | rev8 => rfl

/-- From the header on, any beginning of the frame tells its length. -/
theorem frameLength_take {i : Instr} {k : Nat} (h : i.wf = true) (hk : lengthKnownAfter i ≤ k) :
    frameLength ((encode i).take k) = some (frameBytes i) := by
  have hsplit : (encode i).take k = (encode i).take (lengthKnownAfter i) ++
      ((encode i).drop (lengthKnownAfter i)).take (k - lengthKnownAfter i) := by
    rw [← List.take_add, Nat.add_sub_cancel' hk]
  rw [hsplit]
  exact frameLength_append (frameLength_header h) _

/-- Settles O6: the header tells the length, and no further byte changes it. -/
theorem frameLengthIsKnownFromTheHeader : Obligations.FrameLengthIsKnownFromTheHeader := by
  refine ⟨?whole, fun bytes more n h => frameLength_append h more, fun i k h hk => frameLength_take h hk⟩
  case whole =>
    intro i rest h
    refine ⟨encode_length i, frameLength_append ?_ rest⟩
    rw [← List.take_append_drop (lengthKnownAfter i) (encode i)]
    exact frameLength_append (frameLength_header h) _

/-! ## Bytes that are no command (R68, R69) -/

/-- Settles O8: the decoder's test of byte 0 is the one of R68's ranges. -/
theorem reservedOpcodesAreTheIllegalOnes : Obligations.ReservedOpcodesAreTheIllegalOnes := by
  refine fun op bytes => ⟨decode_cons_of_reservedOpcode bytes, fun hop op' rest hd => ?_⟩
  obtain ⟨heq, hnone⟩ := (decode_illegalCommand_iff _ _ _).1 hd
  obtain ⟨rfl, -⟩ := List.cons.inj heq
  rw [(reservedOpcode_iff_opcodeOf_eq_none op).2 hnone] at hop
  cases hop

/-- A frame cut short is no command yet: were it one, the whole frame would be that one too and leave the bytes cut off. -/
theorem decode_take_encode {i : Instr} {k : Nat} (h : i.wf = true) (hk : k < (encode i).length) :
    decode ((encode i).take k) = .incomplete := by
  have hwhole : decode ((encode i).take k ++ (encode i).drop k) = .command i [] := by
    rw [List.take_append_drop, decode_encode h]
  cases hd : decode ((encode i).take k) with
  | incomplete => rfl
  | illegalCommand op rest =>
    rw [decode_illegalCommand_append _ _ _ _ hd] at hwhole
    cases hwhole
  | command j rest =>
    rw [decode_command_append _ _ _ _ hd] at hwhole
    obtain ⟨-, hrest⟩ := Decoded.command.inj hwhole
    have hdrop := congrArg List.length (List.append_eq_nil_iff.1 hrest).2
    rw [List.length_drop, List.length_nil] at hdrop
    omega

/-- Where every port has an incomplete frame or nothing, no port is picked and the step waits. -/
theorem step_of_all_incomplete {s : State} (h : ∀ p, s.fetch p = .incomplete) : step s = .next s := by
  obtain ⟨-, hwait⟩ | ⟨p, i, rest, -, hd, -⟩ | ⟨p, op, rest, -, hd, -⟩ | ⟨p, -, -, hwait⟩ := step_cases s
  · exact hwait
  · cases hd.symm.trans (h p)
  · cases hd.symm.trans (h p)
  · exact hwait

/-- Settles O9: a proper beginning of a frame is incomplete, and nothing but incomplete frames leaves the step to wait. -/
theorem incompleteFramesWait : Obligations.IncompleteFramesWait :=
  ⟨fun _ _ => decode_take_encode, fun _ _ => step_of_all_incomplete⟩

/-! ## A stream in pieces (R60, R69, R167) -/

/-- What is owed for two parts of a stream, by induction on the frames of the first part: its first frame is answered first in both. -/
theorem answersTo_append (a b : List Byte) : answersTo (a ++ b) = answersTo a ++ answersTo (leftOver a ++ b) := by
  cases hf : firstAnswer a with
  | none => rw [answersTo_of_firstAnswer_eq_none hf, leftOver, leftAfter_none _ hf, List.nil_append]
  | some answer =>
    obtain ⟨r, rest⟩ := answer
    have hlen := firstAnswer_length hf
    rw [answersTo_some hf, answersTo_some (firstAnswer_append hf b), leftOver_some hf, answersTo_append rest b,
      List.cons_append]
termination_by a.length

/-- Settles O50: the frame or the reserved opcode in front is decoded whatever follows it, and so answered first. -/
theorem bytesMayArriveInPieces : Obligations.BytesMayArriveInPieces := by
  refine ⟨answersTo_append, fun i rest hi => ?_, fun op rest hop => ?_⟩
  · exact answersTo_some (firstAnswer_command (decodeOfEncodeIsTheCommand i rest hi))
  · exact answersTo_some (firstAnswer_illegalCommand (decode_cons_of_reservedOpcode rest hop))

end Sys2Proof.Machine
end

section
/-! SUPPORT. Proofs about 40_crc16.md and 41_crc8.md: the table loop and the bit-serial rounds are one function (R80, R81, R85, R115),
splitting a buffer (R92, R93, R113), the tables a command leaves (log 11), the byte swap (R46) and the named selectors (R91). -/

namespace Sys2Proof.Machine

/-! ## Exchanging the bytes (R46) -/

/-- The swapped bytes as a little-endian field. -/
theorem swap16_eq_ofLE16 (x : Half) : swap16 x = ofLE16 (x.extractLsb' 8 8) (x.extractLsb' 0 8) := by
  refine BitVec.eq_of_getLsbD_eq fun i hi => ?_
  rw [getLsbD_swap16 x hi, getLsbD_ofLE16]
  by_cases hlow : i < 8
  · simp [hlow, show (i + 8) % 16 = 8 + i by omega]
  · simp [hlow, show (i + 8) % 16 = i - 8 by omega, show i - 8 < 8 by omega]

/-- Settles O37: the value is that of the two bytes the other way round; the laws are the ones of O36's proof. -/
theorem byteSwapExchangesTheBytes : Obligations.ByteSwapExchangesTheBytes := by
  refine ⟨fun x => ?_, swap16_swap16, swap16_not16⟩
  have hlt := x.isLt
  rw [swap16_eq_ofLE16, ofLE16_toNat, BitVec.extractLsb'_toNat, BitVec.extractLsb'_toNat, Nat.shiftRight_eq_div_pow,
    Nat.shiftRight_zero]
  omega

/-! ## The rounds of the bit-serial update are linear (R85) -/

/-- The test of a round is its accumulator's lowest bit. -/
theorem and_one_eq_one_iff (a : Half) : a &&& 1#16 = 1#16 ↔ a.getLsbD 0 = true := by
  rw [show (1#16 : Half) = BitVec.twoPow 16 0 from rfl, BitVec.and_twoPow]
  cases a.getLsbD 0 <;> decide

/-- A round shifts, and XORs the polynomial in where a bit is shifted out. -/
theorem bitRound16_eq (p a : Half) : bitRound16 p a = (a >>> 1) ^^^ (if a.getLsbD 0 then p else 0x0000#16) := by
  simp only [bitRound16, and_one_eq_one_iff]
  cases a.getLsbD 0 <;> simp

/-- Rounds are linear over XOR: the two shifted bits decide how often the polynomial goes in. -/
theorem bitRound16_xor (p a b : Half) : bitRound16 p (a ^^^ b) = bitRound16 p a ^^^ bitRound16 p b := by
  have hpoly : (if (a ^^^ b).getLsbD 0 then p else 0x0000#16) =
      (if a.getLsbD 0 then p else 0x0000#16) ^^^ (if b.getLsbD 0 then p else 0x0000#16) := by
    rw [BitVec.getLsbD_xor]
    cases a.getLsbD 0 <;> cases b.getLsbD 0 <;> simp
  rw [bitRound16_eq, bitRound16_eq, bitRound16_eq, BitVec.ushiftRight_xor_distrib, hpoly]
  ac_rfl

theorem iterate_bitRound16_xor (p : Half) (k : Nat) (a b : Half) :
    (bitRound16 p)^[k] (a ^^^ b) = (bitRound16 p)^[k] a ^^^ (bitRound16 p)^[k] b :=
  (Function.Semiconj₂.iterate (bitRound16_xor p) k) a b

/-- Where no bit that is 1 is shifted out, rounds only shift. -/
theorem iterate_bitRound16_of_low_zero (p : Half) (k : Nat) (a : Half) (h : ∀ i < k, a.getLsbD i = false) :
    (bitRound16 p)^[k] a = a >>> k := by
  induction k with
  | zero => rfl
  | succ k ih =>
    have hbit : (a >>> k).getLsbD 0 = false := by
      rw [BitVec.getLsbD_ushiftRight]; exact h k (Nat.lt_succ_self k)
    rw [Function.iterate_succ_apply', ih fun i hi => h i (Nat.lt_succ_of_lt hi), bitRound16_eq, hbit,
      BitVec.shiftRight_add]
    exact BitVec.xor_zero

/-! ## The table entry as rounds (R80, R81) -/

theorem zext16_xor (a b : Byte) : zext16 (a ^^^ b) = zext16 a ^^^ zext16 b := BitVec.setWidth_xor

theorem zext16_ushiftRight (i : Byte) (k : Nat) : zext16 (i >>> k) = zext16 i >>> k := by
  refine BitVec.eq_of_toNat_eq ?_
  simp [zext16]

/-- The rounds of R80 keep the entry apart from the index; the bit-serial rounds run on the XOR of the two. -/
theorem iterate_bitRound16_entry_xor_index (p : Half) (k : Nat) (entry : Half) (i : Byte) :
    (bitRound16 p)^[k] (entry ^^^ zext16 i) = tableLoop p k entry i ^^^ zext16 (i >>> k) := by
  induction k generalizing entry i with
  | zero => rfl
  | succ k ih =>
    have hround : bitRound16 p (entry ^^^ zext16 i) =
        (if (entry ^^^ zext16 i) &&& 1#16 = 1#16 then (entry >>> 1) ^^^ p else entry >>> 1) ^^^ zext16 (i >>> 1) := by
      rw [bitRound16, BitVec.ushiftRight_xor_distrib, zext16_ushiftRight]
      split
      · rw [BitVec.xor_assoc, BitVec.xor_comm _ p, ← BitVec.xor_assoc]
      · rfl
    rw [Function.iterate_succ_apply, hround, ih, tableLoop, ← BitVec.shiftRight_add, Nat.add_comm 1 k]

/-- A table entry is eight bit-serial rounds on its index. -/
theorem polyEntry_eq_iterate (p : Half) (index : Byte) : polyEntry p index = (bitRound16 p)^[8] (zext16 index) := by
  have h := iterate_bitRound16_entry_xor_index p 8 0x0000#16 index
  rw [BitVec.zero_xor, BitVec.ushiftRight_eq_zero (Nat.le_refl 8)] at h
  exact (h.trans BitVec.xor_zero).symm

/-- Settles O34: only the polynomial is read; index 0, index 0x80 and polynomial 0 follow the rounds of R80, and linearity is that
of the bit-serial rounds. -/
theorem tableEntryProperties : Obligations.TableEntryProperties := by
  refine ⟨?selector, tableEntry_zero, tableEntry_top_bit, ?zeroPoly, ?linear⟩
  case selector =>
    intro index sel sel' h
    rw [tableEntry, tableEntry, h]
  case zeroPoly =>
    intro index sel h
    rw [tableEntry, h, polyEntry, tableLoop_zero_poly]
  case linear =>
    intro a b sel
    rw [tableEntry, tableEntry, tableEntry, polyEntry_eq_iterate, polyEntry_eq_iterate, polyEntry_eq_iterate, zext16_xor,
      iterate_bitRound16_xor]

/-! ## Two designs of the byte updates (R85, R115) -/

/-- A byte shifted down by eight places is gone. -/
theorem zext16_ushiftRight_eight (b : Byte) : zext16 b >>> 8 = 0x0000#16 := by
  rw [← zext16_ushiftRight, BitVec.ushiftRight_eq_zero (Nat.le_refl 8)]
  rfl

theorem getLsbD_zext16_lowByte (x : Half) {i : Nat} (hi : i < 8) : (zext16 (lowByte x)).getLsbD i = x.getLsbD i := by
  simp [zext16, lowByte, hi, show i < 16 by omega]

/-- Eight rounds shift the high byte down and turn the low byte into the table entry of that index. -/
theorem iterate_bitRound16_eight (p x : Half) : (bitRound16 p)^[8] x = (x >>> 8) ^^^ polyEntry p (lowByte x) := by
  have hlow : ∀ i < 8, (x ^^^ zext16 (lowByte x)).getLsbD i = false := fun i hi => by
    rw [BitVec.getLsbD_xor, getLsbD_zext16_lowByte x hi, Bool.xor_self]
  calc (bitRound16 p)^[8] x = (bitRound16 p)^[8] (x ^^^ zext16 (lowByte x) ^^^ zext16 (lowByte x)) := by
        rw [BitVec.xor_assoc, BitVec.xor_self, BitVec.xor_zero]
    _ = (x ^^^ zext16 (lowByte x)) >>> 8 ^^^ polyEntry p (lowByte x) := by
        rw [iterate_bitRound16_xor, iterate_bitRound16_of_low_zero p 8 _ hlow, ← polyEntry_eq_iterate]
    _ = (x >>> 8) ^^^ polyEntry p (lowByte x) := by
        rw [BitVec.ushiftRight_xor_distrib, zext16_ushiftRight_eight, BitVec.xor_zero]

/-- Settles O35: both sides are the accumulator's high byte XORed with the entry of the low byte of accumulator and byte. -/
theorem tableUpdateEqualsBitSerialUpdate : Obligations.TableUpdateEqualsBitSerialUpdate := by
  intro sel byte acc
  rw [bitSerial16, iterate_bitRound16_eight, BitVec.ushiftRight_xor_distrib, zext16_ushiftRight_eight, BitVec.xor_zero]
  rfl

/-- The rounds of R110 keep the accumulator apart from the data byte; those of R115 run on the XOR of the two. -/
theorem iterate_bitRound8_acc_xor_data (poly : Byte) (k : Nat) (a d : Byte) :
    (bitRound8 poly)^[k] (a ^^^ d) = crc8Loop poly k a d ^^^ (d <<< k) := by
  induction k generalizing a d with
  | zero => exact congrArg (a ^^^ ·) (BitVec.shiftLeft_zero d).symm
  | succ k ih =>
    have htest : (a &&& 0x80#8) ^^^ (if d &&& 0x80#8 ≠ 0#8 then 0x80#8 else 0x00#8) ≠ 0#8 ↔
        (a ^^^ d).getLsbD 7 = true := by
      rw [topBit_of_test, show (0x80#8 : Byte) = BitVec.twoPow 8 7 from rfl, BitVec.and_twoPow, BitVec.and_twoPow,
        BitVec.getLsbD_xor]
      cases a.getLsbD 7 <;> cases d.getLsbD 7 <;> decide
    have hround : bitRound8 poly (a ^^^ d) =
        (if (a ^^^ d).getLsbD 7 = true then (a <<< 1) ^^^ poly else a <<< 1) ^^^ (d <<< 1) := by
      rw [bitRound8, BitVec.shiftLeft_xor_distrib]
      split
      · rw [BitVec.xor_assoc, BitVec.xor_comm _ poly, ← BitVec.xor_assoc]
      · rfl
    rw [Function.iterate_succ_apply, hround, ih, crc8Loop, ← BitVec.shiftLeft_add, Nat.add_comm 1 k]
    simp only [htest]

/-- Settles O44: after eight rounds nothing of the data byte is left beside the accumulator. -/
theorem crc8UpdateEqualsStepOfXor : Obligations.Crc8UpdateEqualsStepOfXor := by
  intro poly byte acc
  rw [step8, iterate_bitRound8_acc_xor_data, byte_shiftLeft_eight, BitVec.xor_zero, continueByte8]

/-! ## Splitting a buffer (R92, R93, R113) -/

/-- Settles O40: the buffer update is then the plain fold over the bytes. -/
theorem streamingLawOfOtherSelectors : Obligations.StreamingLawOfOtherSelectors := by
  intro sel hsel
  have split (a b : List Byte) (acc : Half) :
      continueBuffer16 sel (a ++ b) acc = continueBuffer16 sel b (continueBuffer16 sel a acc) := by
    simp only [continueBuffer16_of_not_dnp hsel, List.foldl_append]
  refine ⟨split, fun a b => split a b _, fun b data acc => ?_⟩
  rw [continueBuffer16_of_not_dnp hsel, continueBuffer16_of_not_dnp hsel, List.foldl_cons]

/-- A finalized DNP3 value other than 0 gives back the accumulator it was made from, so the split does not show. -/
theorem continueBuffer16_dnp_append (a b : List Byte) (acc : Half)
    (h : continueBuffer16 Config.dnpSelector a acc ≠ 0x0000#16) :
    continueBuffer16 Config.dnpSelector b (continueBuffer16 Config.dnpSelector a acc) =
      continueBuffer16 Config.dnpSelector (a ++ b) acc := by
  rw [continueBuffer16_of_dnp isDNP_dnpSelector b h, continueBuffer16_eq _ a, continueBuffer16_eq _ (a ++ b),
    bufferEnd_of_dnp isDNP_dnpSelector, bufferEnd_of_dnp isDNP_dnpSelector, dnpPre_dnpPost, List.foldl_append]

/-- Settles O41: the transforms undo each other unless the finalized value is 0; the exception is computed. -/
theorem resumeLawOfDnpAndItsException : Obligations.ResumeLawOfDnpAndItsException :=
  ⟨continueBuffer16_dnp_append, by decide, by decide, by decide⟩

/-- Settles O43: the one-shot is the fold with xorOut at the end, and a fold goes through the two parts in turn. -/
theorem crc8StreamsByteByByte : Obligations.Crc8StreamsByteByByte := by
  refine ⟨fun poly init xorOut a b => ?_, fun _ _ _ _ => rfl, fun _ _ => rfl⟩
  rw [calculate8_eq, List.foldl_append, fold8, fold8]

/-! ## The tables a CRC16 command leaves (log 11) -/

/-- A result delivered once the table is ready leaves the cache as making it ready does. -/
theorem State.withTable_deliver_tables {s : State} (hs : cacheWf s.cache = true) (sel : Word) (v : Result) :
    TablesAfter s ((s.withTable sel).deliver v) sel :=
  have h := s.withTable_tables sel hs
  ⟨h.onTheFly, h.completed, h.others⟩

/-- Settles O26: each of the four commands makes its table ready and then delivers a result. -/
theorem crc16CommandsCompleteTheirTable : Obligations.Crc16CommandsCompleteTheirTable := by
  intro s hs
  exact ⟨fun _ _ => ⟨_, rfl, State.withTable_deliver_tables hs _ _⟩,
    fun _ _ _ => ⟨_, rfl, State.withTable_deliver_tables hs _ _⟩,
    fun _ _ _ => ⟨_, rfl, State.withTable_deliver_tables hs _ _⟩,
    fun _ _ => ⟨_, rfl, State.withTable_deliver_tables hs _ _⟩⟩

/-! ## The named selectors (R91) -/

/-- Settles O59: the numbers are the model's (log 13), another initial value is not DNP3's, and the check values are computed. -/
theorem namedSelectorsHaveTheirValues : Obligations.NamedSelectorsHaveTheirValues := by
  refine ⟨fun _ => ⟨rfl, rfl⟩, by decide, by decide, isDNP_iff, ?initialValue, by decide, by decide⟩
  case initialValue =>
    exact fun initial h => isDNP_of_initialValueOf_ne (by rwa [initialValueOf_selectorOf])

end Sys2Proof.Machine
end

section
/-! SUPPORT. Proofs about 42_bit_utilities.md: the laws of R126. -/

namespace Sys2Proof.Machine

theorem getLsbD_rev8 (v : Byte) {i : Nat} (hi : i < 8) : (rev8 v).getLsbD i = v.getLsbD (7 - i) :=
  reversalExchangesTheBits v i hi

theorem rev8_rev8 (v : Byte) : rev8 (rev8 v) = v := by
  refine BitVec.eq_of_getLsbD_eq fun i hi => ?_
  rw [getLsbD_rev8 _ hi, getLsbD_rev8 _ (by omega), show 7 - (7 - i) = i by omega]

/-- Reversal keeps the count: the same eight bits are added up, the other way round. -/
theorem popcount_rev8 (v : Byte) : popcount (rev8 v) = popcount v := by
  simp only [popcount, onesBelow, getLsbD_rev8, Nat.reduceLT, Nat.reduceSub]
  omega

/-- Settles O48: reversal is a rearrangement of the bits, and both counts are population counts. -/
theorem bitUtilityLaws : Obligations.BitUtilityLaws := by
  refine ⟨rev8_rev8, popcount_rev8, fun v => ?_, fun v => ?_, fun v h => ?_⟩
  · rw [popCount32_toNat]
    exact popcount_le v
  · rw [popCount16_toNat]
    exact popcount_le _
  · rw [popCount16_toNat, popCount32_toNat, popcount_lowHalf_of_lt h]

end Sys2Proof.Machine
end

section
/-! SUPPORT. Proofs about 30_encoding.md section 5: the assembler takes exactly the operands that fit their fields (R70). -/

namespace Sys2Proof.Machine

/-- A number in a field is the bit string of its value, or none (R70). -/
theorem fit_eq_some_iff {w n : Nat} {v : BitVec w} : fit w n = some v ↔ v.toNat = n := by
  constructor
  · intro h
    unfold fit at h
    split at h
    · next hn => cases h; exact Nat.mod_eq_of_lt hn
    · cases h
  · rintro rfl
    exact fit_toNat v

theorem fit_isSome_iff {w n : Nat} : (fit w n).isSome = true ↔ n < 2 ^ w := by
  unfold fit
  split <;> simp [*]

theorem NumArg.fit_eq_some_iff {w : Nat} {env : HostValues} {a : NumArg} {v : BitVec w} :
    a.fit w env = some v ↔ a.value env = some v.toNat := by
  simp only [NumArg.fit, Option.bind_eq_some_iff, Machine.fit_eq_some_iff, exists_eq_right']

/-- A list of results is there exactly when each entry is the result of its own argument. -/
theorem allSome_map_eq_some_iff {α β : Type} {f : α → Option β} {l : List α} {d : List β} :
    allSome (l.map f) = some d ↔ List.Forall₂ (fun b a => f a = some b) d l := by
  rw [allSome_eq_some_iff, ← List.forall₂_eq_eq_eq, List.forall₂_map_left_iff, List.forall₂_map_right_iff]
  exact ⟨List.Forall₂.flip, List.Forall₂.flip⟩

/-- Each entry has the number it was read from exactly when the lists of numbers are one. -/
theorem map_toNat_eq_iff_forall₂ {w : Nat} {d : List (BitVec w)} {values : List Nat} :
    d.map BitVec.toNat = values ↔ List.Forall₂ (fun b n => b.toNat = n) d values := by
  rw [← List.forall₂_eq_eq_eq, List.forall₂_map_left_iff]

/-- A data operand has the bytes it reads, if a frame can carry them. -/
theorem bind_bufferFits_eq_some_iff {raw : Option (List Byte)} {d : List Byte} :
    (raw.bind fun bytes => if bufferFits bytes then some bytes else none) = some d ↔ raw = some d ∧ bufferFits d = true := by
  simp only [Option.bind_eq_some_iff, Option.ite_none_right_eq_some, Option.some.injEq]
  constructor
  · rintro ⟨_, hraw, hfits, rfl⟩
    exact ⟨hraw, hfits⟩
  · rintro ⟨hraw, hfits⟩
    exact ⟨d, hraw, hfits, rfl⟩

theorem DataArg.bytes_hex {values : List Nat} {d : List Byte} :
    (DataArg.hex values).bytes = some d ↔ d.map BitVec.toNat = values ∧ bufferFits d = true := by
  rw [DataArg.bytes, bind_bufferFits_eq_some_iff, allSome_map_eq_some_iff, map_toNat_eq_iff_forall₂]
  simp only [fit_eq_some_iff]

/-- A character of a quoted string is the byte of its code, if that is ASCII. -/
theorem asciiByte_eq_some_iff {c : Char} {b : Byte} :
    (if c.toNat < 128 then some (BitVec.ofNat 8 c.toNat) else none) = some b ↔ b.toNat < 128 ∧ b.toNat = c.toNat := by
  rw [Option.ite_none_right_eq_some, Option.some.injEq]
  constructor
  · rintro ⟨hc, rfl⟩
    have hb : (BitVec.ofNat 8 c.toNat).toNat = c.toNat := Nat.mod_eq_of_lt (by omega)
    omega
  · rintro ⟨hb, hc⟩
    rw [← hc, BitVec.ofNat_toNat, BitVec.setWidth_eq]
    exact ⟨hb, rfl⟩

theorem DataArg.bytes_ascii {chars : List Char} {d : List Byte} : (DataArg.ascii chars).bytes = some d ↔
    d.map BitVec.toNat = chars.map Char.toNat ∧ (∀ b ∈ d, b.toNat < 128) ∧ bufferFits d = true := by
  rw [DataArg.bytes, bind_bufferFits_eq_some_iff, allSome_map_eq_some_iff, map_toNat_eq_iff_forall₂,
    List.forall₂_map_right_iff]
  simp only [asciiByte_eq_some_iff, List.forall₂_and_left]
  tauto

/-- A result with the value on the right, as the statements about lines have it. -/
theorem optionMap_eq_some_iff {α β : Type} {o : Option α} {f : α → β} {b : β} :
    o.map f = some b ↔ ∃ a, o = some a ∧ b = f a := by
  simp only [Option.map_eq_some_iff, eq_comm]

/-- Settles O57: each operand is there exactly when its value fits, and a line exactly when all its operands are. -/
theorem assemblerNeverTruncates : Obligations.AssemblerNeverTruncates := by
  refine ⟨fun _ _ _ => fit_eq_some_iff, fun _ _ => fit_isSome_iff, fun _ _ _ _ => NumArg.fit_eq_some_iff,
    fun _ _ _ => ⟨rfl, rfl⟩, fun _ _ => DataArg.bytes_hex, fun _ _ => DataArg.bytes_ascii, ?_, ?_, ?_, ?_, ?_, ?_,
    ?_, ?_, ?_, ?_⟩
  -- The ten forms of R70 and R71 differ in their operands only.
  all_goals
    intros
    simp only [Asm.assemble, Option.bind_eq_some_iff, optionMap_eq_some_iff, NumArg.fit_eq_some_iff, exists_and_left]

end Sys2Proof.Machine
end

section
/-! SUPPORT. Proofs about steps and runs: which port a step serves and what it performs (20_memory.md R50, R55; log 16), the invariant
(10_state.md R28, 20_memory.md R152), reset (70_reset_and_hazards.md R160, R161), and runs in which hosts send nothing (R168, R29). -/

namespace Sys2Proof.Machine

/-! ## What a step does -/

/-- Where no port is picked the step waits. -/
theorem step_of_pickPort_none {s : State} (hp : s.pickPort = none) : step s = .next s := by
  simp only [step, State.serveNext, hp]

/-- The step that serves a command performs it once its frame is consumed. -/
theorem step_of_decode_command {s : State} {p : Nat} {i : Instr} {rest : List Byte} (hp : s.pickPort = some p)
    (hd : decode (s.port p).rx = .command i rest) : step s = exec i (s.beginFrame p rest) := by
  simp only [step, State.serveNext, hp, State.servePort, State.fetch, hd]

/-- Settles O10: the step consumes the frame and performs the command. -/
theorem stepRunsTheDecodedCommand : Obligations.StepRunsTheDecodedCommand :=
  fun s p _ rest hs hp hd => ⟨step_of_decode_command hp hd, s.beginFrame_began hs.ports p rest⟩

/-- Settles O12: of the three things a step can do, waiting and IllegalCommand answer a state at once, and so does every command. -/
theorem everyStepAnswersANextState : Obligations.EveryStepAnswersANextState := by
  intro s
  obtain ⟨-, hwait⟩ | ⟨p, i, rest, -, -, hexec⟩ | ⟨p, op, rest, -, -, hillegal⟩ | ⟨p, -, -, hwait⟩ := step_cases s
  · exact ⟨_, hwait⟩
  · obtain ⟨c, v, hnext, -⟩ := exec_shape i (s.beginFrame p rest)
    exact ⟨_, hexec.trans hnext⟩
  · exact ⟨_, hillegal⟩
  · exact ⟨_, hwait⟩

/-- Where no port is picked, no port has a frame to serve. -/
theorem State.startsFrame_of_pickPort_none {s : State} (hs : Inv s) (h : s.pickPort = none) (p : Nat) :
    startsFrame (s.port p).rx = false := by
  rw [← Bool.not_eq_true, ← s.mem_readyPorts hs.ports p, s.pickPort_eq_none_iff.1 h]
  exact List.not_mem_nil

/-- Settles O11: a port that is picked is one of the ready ports, and none is picked only if there is none. -/
theorem thePortThatMovesIsReady : Obligations.ThePortThatMovesIsReady :=
  fun s hs => ⟨fun p hp => ⟨s.pickPort_lt hs.ports p hp, s.pickPort_startsFrame hs.ports p hp⟩,
    State.startsFrame_of_pickPort_none hs⟩

/-- The step that picks a port leaves it as the one being served. -/
theorem step_serving {s t : State} {p : Nat} (hs : Inv s) (hp : s.pickPort = some p) (h : step s = .next t) :
    t.serving = p := by
  obtain ⟨hnone, -⟩ | ⟨q, r, rest, c, hq, -, hstep⟩ := step_waits_or_responds s hs
  · cases hp.symm.trans hnone
  · rw [Host.Outcome.next.inj (h.symm.trans hstep), State.respond_serving, State.beginFrame_serving]
    exact Option.some.inj (hq.symm.trans hp)

theorem HostActs.serving_eq {s t : State} (h : HostActs s t) : t.serving = s.serving := by
  induction h with
  | nothing => rfl
  | send t u p bytes _ hsend ih =>
    obtain ⟨-, rfl⟩ := State.callerSend_some _ _ _ _ hsend
    exact ih
  | take t p _ _ ih => exact ih

/-- Settles O14: beginning the frame sets both fields, and no response and no host action touches them. -/
theorem servedFramesAreCounted : Obligations.ServedFramesAreCounted := by
  refine ⟨fun s t p hs hp h => ⟨step_serving hs hp h, step_picks hs ?_ h⟩, fun s t h => ⟨h.serving_eq, h.picks_eq⟩⟩
  rw [hp]
  exact Option.some_ne_none p

/-! ## The invariant -/

/-- Settles O16: nothing is listed and nothing is stored, and port 0 exists. -/
theorem resetMeetsTheInvariant : Obligations.ResetMeetsTheInvariant := State.reset_inv

/-- Settles O17: a step waits or sends one response, over a cache that is right again. -/
theorem stepKeepsTheInvariant : Obligations.StepKeepsTheInvariant := fun _ _ => step_inv

/-- Settles O18: sending and taking write a port that exists; a reset drops ports from the list and entries from the tables. -/
theorem callerActionsKeepTheInvariant : Obligations.CallerActionsKeepTheInvariant := by
  refine fun s hs => ⟨fun p bytes t hsend => ?_, fun p hp => State.callerTake_inv hs hp, State.callerReset_inv hs⟩
  obtain ⟨hp, rfl⟩ := State.callerSend_some s t p bytes hsend
  exact State.receive_inv hs hp bytes

/-- Settles O20: after a reset no port has received anything, so the next step waits. -/
theorem resetAbandonsUnservedFrames : Obligations.ResetAbandonsUnservedFrames := by
  refine fun s hs => ⟨State.port_callerReset hs, step_of_all_incomplete fun p => ?_⟩
  rw [State.fetch, State.port_callerReset hs]
  rfl

/-! ## A placed frame (log 16) -/

/-- Which port is picked depends on the ready ports and the counter alone. -/
theorem State.pickPort_congr {s t : State} (hready : s.readyPorts = t.readyPorts) (hpicks : s.picks = t.picks) :
    s.pickPort = t.pickPort := by
  rw [State.pickPort, State.pickPort, hready, hpicks]

/-- A frame to serve, set on the port that moves next, or on any port where none does, makes that port the one that moves. -/
theorem State.pickPort_setPort {s : State} (hs : Inv s) {x : Port} (hx : startsFrame x.rx = true) :
    (s.setPort (s.pickPort.getD 0) x).pickPort = some (s.pickPort.getD 0) := by
  cases hp : s.pickPort with
  | none =>
    have hready : (s.setPort 0 x).readyPorts = [0] :=
      readyPorts_putPort_none 0 x s.ports hx (s.pickPort_eq_none_iff.1 hp)
    simp only [Option.getD_none, State.pickPort, hready]
  | some p =>
    have hready : (s.setPort p x).readyPorts = s.readyPorts :=
      readyPorts_putPort_ready p x s.ports hs.ports hx (s.pickPort_startsFrame hs.ports p hp)
    exact (State.pickPort_congr hready rfl).trans hp

/-- A word of the opcode table stands for a frame that decodes to its command. -/
theorem decode_frameOfWord {nbits w : Nat} {i : Instr} (h : decodeTableWord nbits w = some i) :
    ∃ rest, decode (frameOfWord nbits w) = .command i rest := by
  unfold decodeTableWord at h
  split at h <;> cases h
  exact ⟨_, ‹_›⟩

/-- Settles O15: the placed frame is in front on the port that moves, so the step decodes it. -/
theorem placedWordRunsNext : Obligations.PlacedWordRunsNext := by
  intro s nbits w i hs hw
  obtain ⟨rest, hd⟩ := decode_frameOfWord hw
  have hfront := decode_command_append _ _ (s.port (s.pickPort.getD 0)).rx _ hd
  have hpick : (s.withFetchWord nbits w).pickPort = some (s.pickPort.getD 0) :=
    State.pickPort_setPort hs (startsFrame_command _ _ _ hfront)
  have hport : ((s.withFetchWord nbits w).port (s.pickPort.getD 0)).rx =
      frameOfWord nbits w ++ (s.port (s.pickPort.getD 0)).rx := by
    rw [State.withFetchWord, State.placeFrame, State.port_setPort_same _ _ _ (.inr hs.ports)]
  exact ⟨_, _, hpick, step_of_decode_command hpick (hport ▸ hfront)⟩

/-! ## Runs in which hosts send nothing (R168) -/

/-- The bytes not yet consumed, added up over all ports that exist. -/
theorem sum_rx_length (l : List (Nat × Port)) (hl : portsWf l = true) :
    (l.map fun e => e.2.rx.length).sum = ∑ p ∈ Finset.range Config.nPorts, (portAt p l).rx.length := by
  induction l with
  | nil => simp [portAt, Port.idle]
  | cons e t ih =>
    obtain ⟨q, y⟩ := e
    obtain ⟨hbelow, hq, -, ht⟩ := (portsWf_cons q y t).1 hl
    have hsplit (p : Nat) : (portAt p ((q, y) :: t)).rx.length =
        (if q = p then y.rx.length else 0) + (portAt p t).rx.length := by
      by_cases hpq : q = p
      · subst hpq
        simp [portAt, portAt_of_forall_lt q t hbelow, Port.idle]
      · simp [portAt, hpq]
    simp only [List.map_cons, List.sum_cons, ih ht, hsplit, Finset.sum_add_distrib, Finset.sum_ite_eq,
      Finset.mem_range, hq, if_true]

theorem State.pendingBytes_eq_sum {s : State} (hs : Inv s) :
    s.pendingBytes = ∑ p ∈ Finset.range Config.nPorts, (s.port p).rx.length := sum_rx_length s.ports hs.ports

/-- Serving a port consumes at least one byte. -/
theorem Served.pendingBytes_lt {s t : State} {p : Nat} {r : Response} {rest : List Byte} (h : Served s t p r rest)
    (hs : Inv s) (ht : Inv t) : t.pendingBytes < s.pendingBytes := by
  have hconsumed : (t.port p).rx.length < (s.port p).rx.length := by
    rw [h.served]; exact firstAnswer_length h.answer
  have hp : p < Config.nPorts := s.port_lt hs.ports p (ne_idle_of_startsFrame _ (startsFrame_of_firstAnswer h.answer))
  rw [State.pendingBytes_eq_sum hs, State.pendingBytes_eq_sum ht]
  refine Finset.sum_lt_sum (fun q _ => ?_) ⟨p, Finset.mem_range.2 hp, hconsumed⟩
  by_cases hq : q = p
  · rw [hq]; exact hconsumed.le
  · rw [h.others q hq]

/-- Once a step waits, so do all later ones. -/
theorem core_run_of_waits {s : State} (h : step s = .next s) (k : Nat) : core.run k s = .next s := by
  induction k with
  | zero => rfl
  | succ k ih => rw [core_run_succ s s k h, ih]

/-- A run of as many steps as there are bytes ends in a state that waits, with every port promised what it was: each step before that
consumes a byte. -/
theorem core_run_waits {s : State} {k : Nat} (hs : Inv s) (hk : s.pendingBytes ≤ k) :
    ∃ t, core.run k s = .next t ∧ Inv t ∧ t.pickPort = none ∧ ∀ p, t.promised p = s.promised p := by
  induction k generalizing s with
  | zero =>
    obtain ⟨t, hstep, ht⟩ := step_next_inv s hs
    obtain ⟨hnone, -⟩ | ⟨p, r, rest, -, hserved⟩ := step_waits_or_serves s t hs hstep
    · exact ⟨s, rfl, hs, hnone, fun _ => rfl⟩
    · have hlt := hserved.pendingBytes_lt hs ht
      omega
  | succ k ih =>
    obtain ⟨t, hstep, ht⟩ := step_next_inv s hs
    obtain ⟨hnone, -⟩ | ⟨p, r, rest, -, hserved⟩ := step_waits_or_serves s t hs hstep
    · exact ⟨s, core_run_of_waits (step_of_pickPort_none hnone) _, hs, hnone, fun _ => rfl⟩
    · have hlt := hserved.pendingBytes_lt hs ht
      obtain ⟨u, hrun, hu, hnone, hpromised⟩ := ih ht (by omega)
      exact ⟨u, (core_run_succ s t k hstep).trans hrun, hu, hnone, fun q =>
        (hpromised q).trans (hserved.promised_eq q)⟩

/-- Where CORE waits, what a port is promised is what it has. -/
theorem State.promised_of_pickPort_none {s : State} (hs : Inv s) (h : s.pickPort = none) (p : Nat) :
    s.promised p = ((s.port p).tx, (s.port p).rx) := by
  have hfirst : firstAnswer (s.port p).rx = none := by
    rw [firstAnswer, (startsFrame_eq_false_iff _).1 (State.startsFrame_of_pickPort_none hs h p)]
  rw [State.promised, answersTo_of_firstAnswer_eq_none hfirst, leftOver, leftAfter_none _ hfirst, List.append_nil]

/-- Settles O52: the run ends where CORE waits, and there each port has what it was promised. -/
theorem everyCompleteFrameIsAnswered : Obligations.EveryCompleteFrameIsAnswered := by
  intro s k hs hk
  obtain ⟨t, hrun, ht, hnone, hpromised⟩ := core_run_waits hs hk
  refine ⟨t, hrun, step_of_pickPort_none hnone, fun p => ?_⟩
  have hport := (State.promised_of_pickPort_none ht hnone p).symm.trans (hpromised p)
  obtain ⟨htx, hrx⟩ := Prod.mk.inj hport
  rw [← htx, ← hrx]

/-- Settles O54: a step touches no port but the one it picks, and what a port ends with is O52's function of that port alone. -/
theorem portsDoNotInteract : Obligations.PortsDoNotInteract := by
  refine ⟨fun s t p hs hstep hp => step_port_of_not_picked hs hp hstep, fun s t p k m hs ht hport hk hm => ?_⟩
  obtain ⟨s', hs', -, hends⟩ := everyCompleteFrameIsAnswered s k hs hk
  obtain ⟨t', ht', -, hends'⟩ := everyCompleteFrameIsAnswered t m ht hm
  exact ⟨s', t', hs', ht', by rw [hends, hends', hport]⟩

/-! ## The hidden state (R29) -/

theorem SameButTables.port {s t : State} (h : SameButTables s t) (p : Nat) : s.port p = t.port p :=
  congrArg (portAt p) h.ports

/-- The same port is picked, since the tables are not looked at. -/
theorem SameButTables.pickPort {s t : State} (h : SameButTables s t) : s.pickPort = t.pickPort :=
  State.pickPort_congr (by rw [State.readyPorts, State.readyPorts, h.ports]) h.picks

theorem SameButTables.beginFrame {s t : State} (h : SameButTables s t) (p : Nat) (rest : List Byte) :
    SameButTables (s.beginFrame p rest) (t.beginFrame p rest) where
  ports := by rw [State.beginFrame_ports, State.beginFrame_ports, h.port, h.ports]
  serving := rfl
  picks := congrArg (· + 1) h.picks

theorem SameButTables.respond {s t : State} (h : SameButTables s t) (r : Response) :
    SameButTables (s.respond r) (t.respond r) where
  ports := by rw [State.respond_ports, State.respond_ports, h.serving, h.port, h.ports]
  serving := h.serving
  picks := h.picks

/-- A step keeps two states alike but for their tables: it serves the same frame, and its response does not rest on them. -/
theorem SameButTables.step_next {s t : State} (h : SameButTables s t) (hs : Inv s) (ht : Inv t) :
    ∃ s' t', step s = .next s' ∧ step t = .next t' ∧ SameButTables s' t' := by
  obtain ⟨hp, hwait⟩ | ⟨p, i, rest, hp, hd, hexec⟩ | ⟨p, op, rest, hp, hd, hillegal⟩ | ⟨p, hp, hd, -⟩ := step_cases s
  · exact ⟨s, t, hwait, step_of_pickPort_none (h.pickPort ▸ hp), h⟩
  · rw [h.port] at hd
    obtain ⟨s', t', hs', ht', hsame⟩ := (h.beginFrame p rest).exec_next i hs.cache ht.cache
    exact ⟨s', t', hexec.trans hs', (step_of_decode_command (h.pickPort ▸ hp) hd).trans ht', hsame⟩
  · rw [h.port] at hd
    exact ⟨_, _, hillegal, step_of_decode_illegalCommand (h.pickPort ▸ hp) hd, (h.beginFrame p rest).respond .illegal⟩
  · exact absurd hd (s.pickPort_not_incomplete hs.ports p hp)

/-- Settles O55: by induction on the steps, each of which keeps the two states alike but for their tables. -/
theorem tableCacheIsNotObservable : Obligations.TableCacheIsNotObservable := by
  intro s t k
  induction k generalizing s t with
  | zero => exact fun _ _ h => ⟨s, t, rfl, rfl, h⟩
  | succ k ih =>
    intro hs ht h
    obtain ⟨s', t', hstep, hstep', hsame⟩ := h.step_next hs ht
    rw [core_run_succ s s' k hstep, core_run_succ t t' k hstep']
    exact ih s' t' (step_inv hs hstep) (step_inv ht hstep') hsame

end Sys2Proof.Machine
end
